-- ==== Sys2Proof/Word.lean ====
section
/-! DEFINITION. The two word types of the machine (spec/00_scope.md R5, R6). -/

namespace Sys2Proof

/-- A byte: every register, memory cell, operand and output value (R5, XLEN = 8). -/
abbrev Byte := BitVec 8

/-- The width of the program counter (R5, PCLEN = 9): it holds 0 to 256 (spec/10_state.md R16). -/
abbrev PcWord := BitVec 9

end Sys2Proof
end

