-- ==== Sys2Proof/Syntax.lean ====
section
/-! DEFINITION. The eleven instructions of spec/30_encoding.md R52, one constructor per row of
spec/opcode_table.json. An operand is a whole byte (R51): a register index is kept as the byte it is,
because 8 to 255 decode and stop the core only when the register is accessed (R56). -/

namespace Sys2Proof

/-- An instruction. `a` is the byte at `pc + 1`, `b` the byte at `pc + 2` (R50). -/
inductive Instr where
  /-- LDI, format F2: `a` a register index, `b` a literal (R100). -/
  | ldi (a b : Byte)
  /-- PRN, format F1: `a` a register index (R101). -/
  | prn (a : Byte)
  /-- MUL, format F2: `a`, `b` register indices (R102). -/
  | mul (a b : Byte)
  /-- PUSH, format F1: `a` a register index (R110). -/
  | push (a : Byte)
  /-- POP, format F1: `a` a register index (R111). -/
  | pop (a : Byte)
  /-- CALL, format F1: `a` the register that holds the target (R122). -/
  | call (a : Byte)
  /-- RET, format F0 (R123). -/
  | ret
  /-- CMP, format F2: `a`, `b` register indices (R103). -/
  | cmp (a b : Byte)
  /-- JMP, format F1: `a` the register that holds the target (R120). -/
  | jmp (a : Byte)
  /-- JEQ, format F1: `a` the register that holds the target (R121). -/
  | jeq (a : Byte)
  /-- HLT, format F0 (R124). -/
  | hlt
deriving DecidableEq, Repr

end Sys2Proof
end

