-- ==== Sys2Proof/Decode.lean ====
section
/-! DEFINITION. The decoder, the encoder and the assembler text of spec/30_encoding.md. Decoding is by
equality on the whole opcode byte (R53). The operand bytes are always fetched, and those beyond the
opcode's count are ignored (R57). -/

namespace Sys2Proof

/-- Why a fetched window is no instruction. -/
inductive DecodeError where
  /-- The opcode byte is none of the eleven of R52 (R55). -/
  | unknownOpcode (byte : Byte)
deriving DecidableEq, Repr

/-- The decoder (R52, R53, R83) on the three bytes of the fetch: the opcode byte `ir` and the two bytes
after it. Every opcode byte outside the table is rejected by name (R55). -/
def decode (ir a b : Byte) : Except DecodeError Instr :=
  match ir with
  | 0x82#8 => .ok (.ldi a b)
  | 0x47#8 => .ok (.prn a)
  | 0xA2#8 => .ok (.mul a b)
  | 0x45#8 => .ok (.push a)
  | 0x46#8 => .ok (.pop a)
  | 0x50#8 => .ok (.call a)
  | 0x11#8 => .ok .ret
  | 0xA7#8 => .ok (.cmp a b)
  | 0x54#8 => .ok (.jmp a)
  | 0x55#8 => .ok (.jeq a)
  | 0x01#8 => .ok .hlt
  | other => .error (.unknownOpcode other)

/-- The encoder: the instruction's bytes at ascending addresses, opcode first (R50, R52; the opcodes are
the binary column of R52). -/
def encode : Instr → List Byte
  | .ldi a b => [0b10000010#8, a, b]
  | .prn a => [0b01000111#8, a]
  | .mul a b => [0b10100010#8, a, b]
  | .push a => [0b01000101#8, a]
  | .pop a => [0b01000110#8, a]
  | .call a => [0b01010000#8, a]
  | .ret => [0b00010001#8]
  | .cmp a b => [0b10100111#8, a, b]
  | .jmp a => [0b01010100#8, a]
  | .jeq a => [0b01010101#8, a]
  | .hlt => [0b00000001#8]

/-- The operand count of the table's row (R52); the length in bytes is one more (R58). -/
def Instr.operandCount : Instr → Nat
  | .ldi _ _ => 2
  | .prn _ => 1
  | .mul _ _ => 2
  | .push _ => 1
  | .pop _ => 1
  | .call _ => 1
  | .ret => 0
  | .cmp _ _ => 2
  | .jmp _ => 1
  | .jeq _ => 1
  | .hlt => 0

/-- The length of an instruction in bytes, `1 + n` (R58). -/
def Instr.length (i : Instr) : Nat := 1 + i.operandCount

/-- Byte `k` of an instruction word numbered as spec/opcode_table.json numbers it, bit 0 the least
significant bit of the first byte. The bits at `nbits` and above count as 0. -/
def tableByte (nbits w k : Nat) : Byte := BitVec.ofNat 8 (w % 2 ^ nbits / 2 ^ (8 * k))

/-- The instruction the decoder reads from a word numbered as spec/opcode_table.json numbers it. -/
def decodeTableWord (nbits w : Nat) : Option Instr :=
  match decode (tableByte nbits w 0) (tableByte nbits w 1) (tableByte nbits w 2) with
  | .ok i => some i
  | .error _ => none

/-- The mnemonic of the table's row (R52). -/
def Instr.mnemonic : Instr → String
  | .ldi _ _ => "LDI"
  | .prn _ => "PRN"
  | .mul _ _ => "MUL"
  | .push _ => "PUSH"
  | .pop _ => "POP"
  | .call _ => "CALL"
  | .ret => "RET"
  | .cmp _ _ => "CMP"
  | .jmp _ => "JMP"
  | .jeq _ => "JEQ"
  | .hlt => "HLT"

/-- A byte as an unsigned decimal numeral without leading zeros (spec/10_state.md R19). -/
def decimalNumeral (v : Byte) : String := toString v.toNat

/-- The assembly name of a register, `R` and its index in decimal (R59). -/
def registerName (i : Byte) : String := "R" ++ decimalNumeral i

/-- The text of an instruction in the spec's own listings (R59, D24). -/
def Instr.listing (i : Instr) : String :=
  match i with
  | .ldi a b => i.mnemonic ++ " " ++ registerName a ++ "," ++ decimalNumeral b
  | .mul a b => i.mnemonic ++ " " ++ registerName a ++ "," ++ registerName b
  | .cmp a b => i.mnemonic ++ " " ++ registerName a ++ "," ++ registerName b
  | .prn a => i.mnemonic ++ " " ++ registerName a
  | .push a => i.mnemonic ++ " " ++ registerName a
  | .pop a => i.mnemonic ++ " " ++ registerName a
  | .call a => i.mnemonic ++ " " ++ registerName a
  | .jmp a => i.mnemonic ++ " " ++ registerName a
  | .jeq a => i.mnemonic ++ " " ++ registerName a
  | .ret => i.mnemonic
  | .hlt => i.mnemonic

end Sys2Proof
end

