-- ==== Sys2Proof/Config.lean ====
section
/-! DEFINITION. The implementation parameters of spec/00_scope.md R5. The sizes are constants of the
hardware. SP_INIT is open: the machine carries it in `State.spInit`, so that claims are about every
SP_INIT, and only the reset state with no argument needs a number. -/

namespace Sys2Proof.Config

/-- Number of memory cells, addresses 0 to 255 (R5, MEMSIZE). -/
abbrev memSize : Nat := 256

/-- Number of general registers (R5, NREG). -/
abbrev nreg : Nat := 8

/-- Longest instruction in bytes (R5, MAXLEN). -/
abbrev maxLen : Nat := 3

/-- The number the spec recommends for the open parameter SP_INIT (R5, spec/92_eei_decisions.md D1).
DESIGN CHOICE (log 1), unsafe: the source gives no number. Only `State.reset` uses it. -/
def recommendedSpInit : Byte := 244#8

end Sys2Proof.Config
end

