-- ==== Sys2Proof/Machine/State.lean ====
section
/-! DEFINITION. The state of the machine (spec/10_state.md), its stop causes (spec/60_exceptions.md R131),
and the state after reset (R22). State is plain data and holds all the spec gives the machine. -/

namespace Sys2Proof.Machine

/-- The ALU's operation selector (spec/40_alu.md R70): the enumeration ADD, MUL, CMP plus "anything
else". The spec does not encode it, so anything else is told apart by a number of the model's own.
DESIGN CHOICE (log 8), safe. -/
inductive AluOp where
  | add
  | mul
  | cmp
  /-- Any other request (R74). -/
  | other (selector : Nat)
deriving DecidableEq, Repr

/-- The six causes of a stop, with what each records (spec/10_state.md R18, spec/60_exceptions.md R131). -/
inductive Cause where
  /-- The opcode byte is not in the table; raised at decode (R135). -/
  | unknownOpcode (byte : Byte)
  /-- An access above address 255; raised by the fetch (R132). The address is a mathematical integer
  (spec/20_memory.md R31). -/
  | outOfRange (address : Nat)
  /-- A register operand of 8 or more is accessed (R133). -/
  | invalidRegister (index : Byte)
  /-- PUSH or CALL with `x[7] = 0` (R136). -/
  | stackOverflow
  /-- POP or RET with `x[7] >= SP_INIT` (R137). -/
  | stackUnderflow
  /-- The ALU is asked for an unknown operation (R134). -/
  | unsupportedALUOp (op : AluOp)
deriving DecidableEq, Repr

/-- The run state (R17). -/
inductive Run where
  | running
  | halted
  | stopped (cause : Cause)
deriving DecidableEq, Repr

/-- Memory as the listed cells, in one canonical form: addresses strictly rising, none above 255, and no
listed cell equal to what an unlisted address reads as (`Memory.wf` in Machine/Ops.lean). -/
abbrev Memory := List Host.Cell

/-- The whole state of the machine (R10 to R19, R22). -/
structure State where
  /-- General registers `x[0]` to `x[7]`; `x[7]` is the stack pointer (R10, R13). -/
  x : Vector Byte 8
  /-- Program counter, 9 bits, 0 to 256 (R16). -/
  pc : PcWord
  /-- Flags: bit 0 E, bit 1 G, bit 2 L, bits 7:3 always 0 (R14). -/
  fl : Byte
  /-- The memory of 256 cells (spec/20_memory.md R30). -/
  mem : Memory
  /-- RUNNING, HALTED or STOPPED with its cause (R17, R18). -/
  run : Run
  /-- What PRN has emitted so far, oldest first (R19). -/
  out : List Byte
  /-- The parameter SP_INIT of this machine (spec/00_scope.md R5). No step writes it (log 1). -/
  spInit : Byte
deriving DecidableEq, Repr

/-- Why there is no step from a state. No instruction raises either: a stop of the spec is a next
state with `run = STOPPED(cause)` (log 2). -/
inductive Fault where
  /-- Raised by `step` in HALTED, where no step exists (R17, spec/41_execute_loop.md R80). Safe. -/
  | noStepInHalted
  /-- Raised by `step` in STOPPED, where no step exists (R17, R80). Safe. -/
  | noStepInStopped (cause : Cause)
deriving DecidableEq, Repr

/-- What the model does not accept. -/
inductive Refusal where
  /-- The instruction has no meaning yet. Raised by no arm of this model. Safe. -/
  | notModelled (mnemonic : String)
  /-- Raised by `State.load` for an image of more than 256 bytes, for which no reset state exists
  (spec/70_reset_and_hazards.md R163). Safe. -/
  | imageTooLong (length : Nat)
deriving DecidableEq, Repr

/-- The machine right after reset with the empty image (R22, spec/70_reset_and_hazards.md R160, R163).
SP_INIT is the recommended 244. DESIGN CHOICE (log 1), unsafe. -/
def State.reset : State where
  x := #v[0#8, 0#8, 0#8, 0#8, 0#8, 0#8, 0#8, Config.recommendedSpInit]
  pc := 0#9
  fl := 0#8
  mem := []
  run := .running
  out := []
  spInit := Config.recommendedSpInit

end Sys2Proof.Machine
end

