-- ==== Sys2Proof/Machine/Ops.lean ====
section
/-! DEFINITION. The named operations over memory, registers, program counter, run state and output; the
one operation that takes a stop; the loader's contract; the fetch. An operation that can stop the core
answers `Except Cause`, and `State.settle` turns that into a step's outcome, so that a stop changes
nothing but `run` (spec/60_exceptions.md R139). -/

namespace Sys2Proof.Machine

/-- The answer of an instruction's meaning and of a step. -/
abbrev Result := Host.Outcome State Fault Refusal

/-! ### Memory as data -/

/-- What an address that is not listed reads as: "unpopulated cells are zero"
(spec/10_state.md R22, spec/70_reset_and_hazards.md R163; log 4). -/
def Memory.unlisted : Byte := 0#8

/-- The byte held at an address. -/
def Memory.read (m : Memory) (a : Nat) : Byte :=
  match m with
  | [] => Memory.unlisted
  | (k, v) :: rest => if k = a then v else Memory.read rest a

/-- A cell in front of the later cells, unless it holds what an unlisted address reads as. -/
def Memory.consCell (a : Nat) (v : Byte) (rest : Memory) : Memory :=
  if v = Memory.unlisted then rest else (a, v) :: rest

/-- The memory with the byte at one address replaced, in canonical form. -/
def Memory.write (m : Memory) (a : Nat) (v : Byte) : Memory :=
  match m with
  | [] => Memory.consCell a v []
  | (k, w) :: rest =>
    if a < k then Memory.consCell a v ((k, w) :: rest)
    else if a = k then Memory.consCell a v rest
    else (k, w) :: Memory.write rest a v

/-- The canonical form: addresses strictly rising, each below 256, and no listed cell equal to what an
unlisted address reads as. -/
abbrev Memory.wf (m : Memory) : Prop :=
  m.Pairwise (fun c d => c.1 < d.1) ∧ ∀ c ∈ m, c.1 < Config.memSize ∧ c.2 ≠ Memory.unlisted

/-- Place bytes at consecutive addresses from `a`; an address above 255 does not exist and takes none. -/
def Memory.place (m : Memory) (a : Nat) (bytes : List Byte) : Memory :=
  match bytes with
  | [] => m
  | v :: rest => Memory.place (if a < Config.memSize then Memory.write m a v else m) (a + 1) rest

/-! ### Reading and writing the state -/

/-- `x[i]` (spec/00_scope.md R7). -/
def State.getReg (s : State) (i : Fin 8) : Byte := s.x[i.val]

/-- `x[i] <- v` (R7, spec/10_state.md R11: a byte is stored, so the value is already modulo 256). -/
def State.setReg (s : State) (i : Fin 8) (v : Byte) : State := { s with x := s.x.set i.val v }

/-- The index of the stack pointer, fixed at 7 (spec/10_state.md R13). -/
def spIndex : Fin 8 := 7

/-- The current value of the stack pointer, register 7 (R13). -/
def State.sp (s : State) : Byte := s.getReg spIndex

/-- Write the stack pointer. -/
def State.setSp (s : State) (v : Byte) : State := s.setReg spIndex v

/-- Replace the memory. -/
def State.setMem (s : State) (m : Memory) : State := { s with mem := m }

/-- `MemRead(addr, 1)` (spec/20_memory.md R31): never reduced, never clamped. -/
def State.memRead (s : State) (addr : Nat) : Except Cause Byte :=
  if addr < Config.memSize then .ok (s.mem.read addr) else .error (.outOfRange addr)

/-- `MemWrite(addr, 1, v)` (spec/20_memory.md R32). -/
def State.memWrite (s : State) (addr : Nat) (v : Byte) : Except Cause State :=
  if addr < Config.memSize then .ok (s.setMem (s.mem.write addr v)) else .error (.outOfRange addr)

/-- Advance of the program counter past an instruction with `n` operand bytes, `pc + 1 + n` in 9 bits
(spec/41_execute_loop.md R84). It cannot wrap in a step, where `pc <= 253` (log 6). -/
def State.advance (s : State) (n : Nat) : State := { s with pc := s.pc + BitVec.ofNat 9 (1 + n) }

/-- `pc <- zext_9(v)`: every control transfer loads a byte (spec/10_state.md R16,
spec/44_control_flow.md R126). -/
def State.jumpTo (s : State) (v : Byte) : State := { s with pc := v.setWidth 9 }

/-- The byte CALL pushes, `pc + 2` (spec/44_control_flow.md R122), at most 255 in a step (log 6). -/
def State.returnAddress (s : State) : Byte := BitVec.ofNat 8 (s.pc.toNat + 2)

/-- `Out(v)`: append a byte to the output stream (spec/10_state.md R19). -/
def State.emit (s : State) (v : Byte) : State := { s with out := s.out ++ [v] }

/-- `halt`: `run <- HALTED`, nothing else (spec/44_control_flow.md R124). -/
def State.halt (s : State) : State := { s with run := .halted }

/-! ### Stops -/

/-- `raise <Cause>(info)`, the one exceptional event (spec/60_exceptions.md R130): the run state becomes
STOPPED with the cause, and nothing else changes. No handler, no vector, nothing saved; and no return
(R141). -/
def raise (c : Cause) (s : State) : Result := .next { s with run := .stopped c }

/-- The outcome of an instruction at `s`: its effect, or, where a check fails, the stop taken in the
state before the instruction (R139). -/
def State.settle (s : State) (effect : Except Cause State) : Result :=
  match effect with
  | .ok t => .next t
  | .error c => raise c s

/-- The numbers the spec proposes for a status port (R131, D16). No rule depends on them. -/
def Cause.number : Cause → Nat
  | .unknownOpcode _ => 1
  | .outOfRange _ => 2
  | .invalidRegister _ => 3
  | .stackOverflow => 4
  | .stackUnderflow => 5
  | .unsupportedALUOp _ => 6

/-! ### The stack pointer's two moves -/

/-- The first half of a push (spec/43_stack.md R110): StackOverflow at 0 (spec/60_exceptions.md R136),
else the decrement. -/
def State.decrementSp (s : State) : Except Cause State :=
  if s.sp = 0#8 then .error .stackOverflow else .ok (s.setSp (s.sp - 1#8))

/-- The first half of a pop (spec/43_stack.md R111): StackUnderflow when `x[7] >= SP_INIT`
(spec/60_exceptions.md R137), else the byte on top of the stack. -/
def State.topOfStack (s : State) : Except Cause Byte :=
  if s.spInit.toNat ≤ s.sp.toNat then .error .stackUnderflow else s.memRead s.sp.toNat

/-- The second half of a pop: the increment, modulo 256 (R111). -/
def State.incrementSp (s : State) : State := s.setSp (s.sp + 1#8)

/-! ### Reset and the loader -/

/-- Reset with SP_INIT and a program image (spec/70_reset_and_hazards.md R160 to R163): the image at
address 0, zeros above it, register 7 at SP_INIT, everything else as spec/10_state.md R22 says. An image
of more than 256 bytes is refused. Reset may be applied in any state and nothing survives it, so it takes
no state (log 5). -/
def State.load (spInit : Byte) (image : List Byte) : Result :=
  if image.length ≤ Config.memSize then
    .next
      { x := #v[0#8, 0#8, 0#8, 0#8, 0#8, 0#8, 0#8, spInit]
        pc := 0#9
        fl := 0#8
        mem := Memory.place [] 0 image
        run := .running
        out := []
        spInit := spInit }
  else .refused (.imageTooLong image.length)

/-! ### Fetch and decode -/

/-- The fetch (spec/41_execute_loop.md R81, R82): the opcode byte and, unconditionally, the two bytes
after it, in that order; each read fails out of range on its own. -/
def State.fetch (s : State) : Except Cause (Byte × Byte × Byte) := do
  let ir ← s.memRead s.pc.toNat
  let a ← s.memRead (s.pc.toNat + 1)
  let b ← s.memRead (s.pc.toNat + 2)
  pure (ir, a, b)

/-- Fetch and decode: the instruction at `pc`, or the stop (R81 to R83, R86). -/
def State.nextInstr (s : State) : Except Cause Instr :=
  match s.fetch with
  | .error c => .error c
  | .ok (ir, a, b) =>
    match decode ir a b with
    | .ok i => .ok i
    | .error (.unknownOpcode byte) => .error (.unknownOpcode byte)

/-- Store the three bytes of an instruction word where the next fetch reads them. -/
def State.placeWord (s : State) (nbits w : Nat) : State :=
  let bytes := [tableByte nbits w 0, tableByte nbits w 1, tableByte nbits w 2]
  s.setMem (s.mem.place s.pc.toNat bytes)

/-! ### What the environment sees -/

/-- The output as the environment renders it: one decimal numeral for each byte (R19, R101). -/
def State.printed (s : State) : List String := s.out.map decimalNumeral

end Sys2Proof.Machine
end

