-- ==== Sys2Proof/Machine/Flags.lean ====
section
/-! DEFINITION. The flags register (spec/10_state.md R14, R15) and the comparison that sets it
(spec/40_alu.md R73). -/

namespace Sys2Proof.Machine

/-- Bit 0 of FL, equal (R14). -/
def State.flagE (s : State) : Bool := s.fl.getLsbD 0

/-- Bit 1 of FL, greater-than (R14). -/
def State.flagG (s : State) : Bool := s.fl.getLsbD 1

/-- Bit 2 of FL, less-than (R14). -/
def State.flagL (s : State) : Bool := s.fl.getLsbD 2

/-- The three flags L, G, E of comparing two bytes as unsigned integers: exactly one is set (R73). -/
def compareFlags (va vb : Byte) : BitVec 3 :=
  if va.toNat = vb.toNat then 0b001#3
  else if vb.toNat < va.toNat then 0b010#3
  else 0b100#3

/-- Write all three flags at once; bits 7:3 are hardwired to 0 (R14, R15). -/
def State.setFlags (s : State) (f : BitVec 3) : State := { s with fl := f.setWidth 8 }

end Sys2Proof.Machine
end

