-- ==== Sys2Proof/Machine/Operands.lean ====
section
/-! DEFINITION. The operand forms of spec/30_encoding.md R51. There are two: a register index, which is
checked when the register is accessed, and the literal of LDI, which is the byte itself. -/

namespace Sys2Proof.Machine

/-- A register operand: the whole byte is the index, 0 to 7 legal, anything else InvalidRegister with
that byte (spec/10_state.md R12, spec/60_exceptions.md R133). -/
def regIndex (i : Byte) : Except Cause (Fin 8) :=
  if h : i.toNat < 8 then .ok ⟨i.toNat, h⟩ else .error (.invalidRegister i)

/-- The literal operand of LDI: 0 to 255 as is (R51). -/
def literal (b : Byte) : Byte := b

end Sys2Proof.Machine
end

