-- ==== Sys2Proof/Machine/ControlFlow.lean ====
section
/-! DEFINITION. JMP, JEQ, CALL, RET, HLT (spec/44_control_flow.md). -/

namespace Sys2Proof.Machine

/-- JMP (R120): `pc <- x[a]`; the target is not checked (R126). -/
def execJmp (a : Byte) (s : State) : Result := s.settle do
  let i ← regIndex a
  pure (s.jumpTo (s.getReg i))

/-- JEQ (R121): as JMP when E is set; otherwise `pc + 2`, and the operand is not checked. -/
def execJeq (a : Byte) (s : State) : Result :=
  if s.flagE then
    s.settle do
      let i ← regIndex a
      pure (s.jumpTo (s.getReg i))
  else .next (s.advance 1)

/-- CALL (R122): push `pc + 2`, then `pc <- x[a]`, read after the decrement. -/
def execCall (a : Byte) (s : State) : Result := s.settle do
  let i ← regIndex a
  let t ← s.decrementSp
  let u ← t.memWrite t.sp.toNat s.returnAddress
  pure (u.jumpTo (u.getReg i))

/-- RET (R123): `pc` from the top of the stack, then increment `x[7]`. -/
def execRet (s : State) : Result := s.settle do
  let v ← s.topOfStack
  pure (s.jumpTo v).incrementSp

/-- HLT (R124): `run <- HALTED`; `pc` keeps the address of the HLT byte. -/
def execHlt (s : State) : Result := .next s.halt

end Sys2Proof.Machine
end

