-- ==== Sys2Proof/Machine/Alu.lean ====
section
/-! DEFINITION. The ALU (spec/40_alu.md): a pure function of a selector and two byte values, with no
state of its own (R70, R75), and the engine's use of it. -/

namespace Sys2Proof.Machine

/-- The ALU's result ports; a port that is not driven is `none` (R70). -/
structure AluOut where
  /-- The result of ADD or MUL. -/
  res : Option Byte
  /-- The flags L, G, E of CMP. -/
  flags : Option (BitVec 3)
deriving DecidableEq, Repr

/-- `(va + vb) mod 256`, no carry (R71). -/
def aluAdd (va vb : Byte) : Byte := BitVec.ofNat 8 (va.toNat + vb.toNat)

/-- `(va * vb) mod 256`, the high byte recorded nowhere (R72). -/
def aluMul (va vb : Byte) : Byte := BitVec.ofNat 8 (va.toNat * vb.toNat)

/-- The ALU (R70 to R74). ADD is an operation of the unit that no opcode selects (R71). -/
def alu (op : AluOp) (va vb : Byte) : Except Cause AluOut :=
  match op with
  | .add => .ok { res := some (aluAdd va vb), flags := none }
  | .mul => .ok { res := some (aluMul va vb), flags := none }
  | .cmp => .ok { res := none, flags := some (compareFlags va vb) }
  | .other n => .error (.unsupportedALUOp (.other n))

/-- The engine writes back what the ALU drives: the result to `x[i]`, the flags to FL (R70). -/
def State.writeBack (s : State) (i : Fin 8) (o : AluOut) : State :=
  let s := match o.res with
    | some v => s.setReg i v
    | none => s
  match o.flags with
  | some f => s.setFlags f
  | none => s

/-- An ALU instruction on registers `a` and `b`: both indices are checked, `a` first (spec/60_exceptions.md
R138), both registers are read, the ALU is asked, and its result is written back (R70). -/
def State.aluRegisters (s : State) (op : AluOp) (a b : Byte) : Except Cause State := do
  let i ← regIndex a
  let j ← regIndex b
  let o ← alu op (s.getReg i) (s.getReg j)
  pure (s.writeBack i o)

end Sys2Proof.Machine
end

