-- ==== Sys2Proof/Machine/LoadPrintArith.lean ====
section
/-! DEFINITION. LDI, PRN, MUL, CMP (spec/42_load_print_arith.md). -/

namespace Sys2Proof.Machine

/-- LDI (R100): `x[a] <- b`. -/
def execLdi (a b : Byte) (s : State) : Result := s.settle do
  let i ← regIndex a
  pure ((s.setReg i (literal b)).advance 2)

/-- PRN (R101): `Out(x[a])`. -/
def execPrn (a : Byte) (s : State) : Result := s.settle do
  let i ← regIndex a
  pure ((s.emit (s.getReg i)).advance 1)

/-- MUL (R102): `x[a] <- (x[a] * x[b]) mod 256`, through the ALU. -/
def execMul (a b : Byte) (s : State) : Result := s.settle do
  let t ← s.aluRegisters .mul a b
  pure (t.advance 2)

/-- CMP (R103): the flags of comparing `x[a]` with `x[b]`, through the ALU. -/
def execCmp (a b : Byte) (s : State) : Result := s.settle do
  let t ← s.aluRegisters .cmp a b
  pure (t.advance 2)

end Sys2Proof.Machine
end

