-- ==== Sys2Proof/Machine/Stack.lean ====
section
/-! DEFINITION. PUSH and POP (spec/43_stack.md). -/

namespace Sys2Proof.Machine

/-- PUSH (R110): decrement `x[7]`, then store `x[a]`, read after the decrement, at the new `x[7]`. -/
def execPush (a : Byte) (s : State) : Result := s.settle do
  let i ← regIndex a
  let t ← s.decrementSp
  let u ← t.memWrite t.sp.toNat (t.getReg i)
  pure (u.advance 1)

/-- POP (R111): load `x[a]` from the top of the stack, then increment `x[7]` as it is after the load. -/
def execPop (a : Byte) (s : State) : Result := s.settle do
  let i ← regIndex a
  let v ← s.topOfStack
  pure ((s.setReg i v).incrementSp.advance 1)

end Sys2Proof.Machine
end

