-- ==== Sys2Proof/Machine/Step.lean ====
section
/-! DEFINITION. One step (spec/41_execute_loop.md R80 to R90), and the placing of an instruction where
the next step fetches it. -/

namespace Sys2Proof.Machine

/-- One step: fetch, decode, execute. It is defined only in RUNNING (R80, R90); in HALTED and STOPPED no
step exists (spec/10_state.md R17), which the model answers with a fault (log 3). -/
def step (s : State) : Host.Outcome State Fault Refusal :=
  match s.run with
  | .running =>
    match s.nextInstr with
    | .ok i => exec i s
    | .error c => raise c s
  | .halted => .fault .noStepInHalted
  | .stopped c => .fault (.noStepInStopped c)

/-- The instruction word stored where `step` fetches next: the bytes at `pc`, `pc + 1`, `pc + 2`. It
stands for the loader's placing of a program (log 5). -/
def State.withFetchWord (s : State) (nbits w : Nat) : State := s.placeWord nbits w

end Sys2Proof.Machine
end

