-- ==== Sys2Proof/Safety.lean ====
section
/-! DEFINITION. What counts as an ended, a good and a bad run (spec/41_execute_loop.md R85,
spec/60_exceptions.md R143, spec/70_reset_and_hazards.md R171), and the machine's invariant. -/

namespace Sys2Proof.Machine

/-- The run has ended: `run` is not RUNNING (R85). -/
def State.ended (s : State) : Bool := s.run != .running

/-- The only normal end (R85). -/
def State.completed (s : State) : Bool := s.run == .halted

/-- Every STOPPED state counts as gone wrong, UnknownOpcode included (R143). -/
def State.goneWrong (s : State) : Bool :=
  match s.run with
  | .stopped _ => true
  | .running => false
  | .halted => false

/-- At most `k` steps from `s`, staying where the run has ended. The fuel is the model's own: running out
of it is no state of the hardware (spec/41_execute_loop.md R88, D23). -/
def runFor : Nat → State → State
  | 0, s => s
  | k + 1, s =>
    match step s with
    | .next t => runFor k t
    | .fault _ => s
    | .refused _ => s

/-- The program runs to completion: it reaches HALTED (R85). -/
def RunsToCompletion (s : State) : Prop := ∃ k, (runFor k s).completed = true

/-- A safe run: no state it reaches has gone wrong (R143). It may be infinite (R88). -/
def SafeRun (s : State) : Prop := ∀ k, (runFor k s).goneWrong = false

/-- The values of FL that occur (spec/10_state.md R14). -/
abbrev State.flagsLegal (s : State) : Prop := s.fl = 0#8 ∨ s.fl = 1#8 ∨ s.fl = 2#8 ∨ s.fl = 4#8

/-- The machine's invariant: `pc` holds 0 to 256 (R16), FL holds 0, 1, 2 or 4 (R14), and memory is in its
canonical form inside addresses 0 to 255 (spec/20_memory.md R30). -/
abbrev State.Inv (s : State) : Prop := s.pc.toNat ≤ 256 ∧ s.flagsLegal ∧ Memory.wf s.mem

end Sys2Proof.Machine
end

