-- ==== Sys2Proof/Certificates/Slice0/Obligations.lean ====
section
/-! DEFINITION. The statements for the provers. Each docstring names the rules of spec/ it formalises and,
where a clause rests on one of the spec's own decisions (D) or on this model's choice (log), says so. -/

open Sys2Proof Sys2Proof.Machine

/-! ### Encoding -/

/-- Spec/30_encoding.md R50, R52, R57: the three bytes fetched where an encoded instruction stands decode to
that instruction, for every operand byte and whatever bytes follow it. -/
def Obligations.DecodeOfEncode : Prop :=
  ∀ (i : Instr) (rest tail : List Byte) (ir a b : Byte),
    encode i ++ rest = ir :: a :: b :: tail → decode ir a b = .ok i

/-- Spec/30_encoding.md R52, R58: an accepted window begins with the encoding of what it decodes to, so an
instruction has one encoding and no bit of it is dropped. -/
def Obligations.EncodeOfDecode : Prop :=
  ∀ (ir a b : Byte) (i : Instr), decode ir a b = .ok i → encode i = [ir, a, b].take i.length

/-- Spec/30_encoding.md R53 with the table of R52: decoding is by equality on the whole opcode byte. Each of
the eleven bytes gives its instruction with the operand bytes as they are, and every other byte is unknown. -/
def Obligations.DecodeByWholeOpcodeByte : Prop :=
  ∀ ir a b : Byte,
    decode ir a b =
      if ir = 0b10000010#8 then .ok (.ldi a b)
      else if ir = 0b01000111#8 then .ok (.prn a)
      else if ir = 0b10100010#8 then .ok (.mul a b)
      else if ir = 0b01000101#8 then .ok (.push a)
      else if ir = 0b01000110#8 then .ok (.pop a)
      else if ir = 0b01010000#8 then .ok (.call a)
      else if ir = 0b00010001#8 then .ok .ret
      else if ir = 0b10100111#8 then .ok (.cmp a b)
      else if ir = 0b01010100#8 then .ok (.jmp a)
      else if ir = 0b01010101#8 then .ok (.jeq a)
      else if ir = 0b00000001#8 then .ok .hlt
      else .error (.unknownOpcode ir)

/-- Spec/30_encoding.md section 6 and spec/95_test_vectors.md: a few words of the spec's own examples, as
bytes and as the table numbers their bits. -/
def Obligations.ExampleWordsDecode : Prop :=
  decode 0x82#8 0x00#8 0x08#8 = .ok (.ldi 0 8) ∧
  decode 0xA2#8 0x00#8 0x01#8 = .ok (.mul 0 1) ∧
  decode 0x47#8 0x00#8 0x01#8 = .ok (.prn 0) ∧
  decode 0x11#8 0xFF#8 0xFF#8 = .ok .ret ∧
  decode 0xA0#8 0x00#8 0x01#8 = .error (.unknownOpcode 0xA0#8) ∧
  decodeTableWord 24 0x0100A7 = some (.cmp 0 1) ∧
  decodeTableWord 16 0x0255 = some (.jeq 2)

/-! ### The step -/

/-- Spec/41_execute_loop.md R81 to R83, R90: when the three bytes at the program counter decode to `i`, a step
is the execution of `i` at the state as it is. -/
def Obligations.StepRunsDecodedInstruction : Prop :=
  ∀ (s : State) (i : Instr), s.run = .running → s.pc.toNat ≤ 253 →
    decode (s.mem.read s.pc.toNat) (s.mem.read (s.pc.toNat + 1)) (s.mem.read (s.pc.toNat + 2)) = .ok i →
    step s = exec i s

/-- Spec/41_execute_loop.md R81 to R83 and spec/30_encoding.md R57: when memory holds the encoding of `i` at
the program counter, whatever follows it, a step is the execution of `i`. -/
def Obligations.StepRunsEncodedInstruction : Prop :=
  ∀ (s : State) (i : Instr), s.run = .running → s.pc.toNat ≤ 253 →
    (∀ k (h : k < (encode i).length), s.mem.read (s.pc.toNat + k) = (encode i)[k]) →
    step s = exec i s

/-- Spec/41_execute_loop.md R82 (the spec's decision D3): a step whose `pc` is 254, 255 or 256 stops with
OutOfRange(256), whatever memory holds, and changes nothing else. -/
def Obligations.FetchPastMemoryStops : Prop :=
  ∀ s : State, s.run = .running → 254 ≤ s.pc.toNat → s.pc.toNat ≤ 256 →
    step s = .next { s with run := .stopped (.outOfRange 256) }

/-- Spec/41_execute_loop.md R86 (`pc` kept: the spec's decision D22), spec/30_encoding.md R55: an opcode byte
outside the table stops the core with that byte, and changes nothing else. -/
def Obligations.UnknownOpcodeStops : Prop :=
  ∀ (s : State) (byte : Byte), s.run = .running → s.pc.toNat ≤ 253 → s.mem.read s.pc.toNat = byte →
    byte ∉ [0x82#8, 0x47#8, 0xA2#8, 0x45#8, 0x46#8, 0x50#8, 0x11#8, 0xA7#8, 0x54#8, 0x55#8, 0x01#8] →
    step s = .next { s with run := .stopped (.unknownOpcode byte) }

/-- Spec/41_execute_loop.md R80: in RUNNING the step has one outcome, a next state; in HALTED and STOPPED no
step exists. -/
def Obligations.StepIsTotalExactlyInRunning : Prop :=
  ∀ s : State, (∃ t, step s = .next t) ↔ s.run = .running

/-- Log 3, this model's choice for "no step exists" (spec/10_state.md R17, the spec's decision D15): a step
asked for in HALTED or STOPPED is a fault that names the end and keeps the cause. -/
def Obligations.EndedStatesFaultByName : Prop :=
  ∀ s : State, (s.run = .halted → step s = .fault .noStepInHalted) ∧
    ∀ c, s.run = .stopped c → step s = .fault (.noStepInStopped c)

/-! ### What each instruction does. An equality of whole states says the result and that nothing else
changes. The sums on `pc` are in 9 bits; `ProgramCounterAfterStep` says they never wrap. -/

/-- Spec/42_load_print_arith.md R100. -/
def Obligations.LdiLoadsLiteral : Prop :=
  ∀ (s : State) (a b : Byte), encode (.ldi a b) = [0x82#8, a, b] ∧
    (∀ h : a.toNat < 8, exec (.ldi a b) s = .next { s with x := s.x.set a.toNat b, pc := s.pc + 3#9 }) ∧
    (8 ≤ a.toNat → exec (.ldi a b) s = .next { s with run := .stopped (.invalidRegister a) })

/-- Spec/42_load_print_arith.md R101, and the numeral the environment shows. -/
def Obligations.PrnEmitsRegister : Prop :=
  ∀ (s : State) (a : Byte), encode (.prn a) = [0x47#8, a] ∧
    (∀ h : a.toNat < 8, exec (.prn a) s =
      .next { s with out := s.out ++ [s.x[a.toNat]], pc := s.pc + 2#9 }) ∧
    (8 ≤ a.toNat → exec (.prn a) s = .next { s with run := .stopped (.invalidRegister a) }) ∧
    (∀ (h : a.toNat < 8) (t : State), exec (.prn a) s = .next t →
      t.printed = s.printed ++ [toString s.x[a.toNat].toNat])

/-- Spec/42_load_print_arith.md R102: the product modulo 256; `a` is checked before `b`. -/
def Obligations.MulMultiplies : Prop :=
  ∀ (s : State) (a b : Byte), encode (.mul a b) = [0xA2#8, a, b] ∧
    (∀ (ha : a.toNat < 8) (hb : b.toNat < 8), exec (.mul a b) s =
      .next { s with
        x := s.x.set a.toNat (BitVec.ofNat 8 (s.x[a.toNat].toNat * s.x[b.toNat].toNat % 256))
        pc := s.pc + 3#9 }) ∧
    (8 ≤ a.toNat → exec (.mul a b) s = .next { s with run := .stopped (.invalidRegister a) }) ∧
    (a.toNat < 8 → 8 ≤ b.toNat →
      exec (.mul a b) s = .next { s with run := .stopped (.invalidRegister b) })

/-- Spec/42_load_print_arith.md R103, unsigned; that less-than means `x[a] < x[b]` is the spec's decision
D10. -/
def Obligations.CmpSetsFlags : Prop :=
  ∀ (s : State) (a b : Byte), encode (.cmp a b) = [0xA7#8, a, b] ∧
    (∀ (ha : a.toNat < 8) (hb : b.toNat < 8), exec (.cmp a b) s =
      .next { s with
        fl := if s.x[a.toNat].toNat = s.x[b.toNat].toNat then 0b00000001#8
              else if s.x[a.toNat].toNat > s.x[b.toNat].toNat then 0b00000010#8
              else 0b00000100#8
        pc := s.pc + 3#9 }) ∧
    (8 ≤ a.toNat → exec (.cmp a b) s = .next { s with run := .stopped (.invalidRegister a) }) ∧
    (a.toNat < 8 → 8 ≤ b.toNat →
      exec (.cmp a b) s = .next { s with run := .stopped (.invalidRegister b) })

/-- Spec/43_stack.md R110. StackOverflow at 0 is the spec's decision D5, and that PUSH R7 stores the
decremented pointer is marked derived there. `y` is the register file after the decrement. -/
def Obligations.PushStoresBelowStackPointer : Prop :=
  ∀ (s : State) (a : Byte), encode (.push a) = [0x45#8, a] ∧
    (∀ h : a.toNat < 8, s.x[7] ≠ 0#8 →
      ∀ y, y = s.x.set 7 (s.x[7] - 1#8) →
        exec (.push a) s =
          .next { s with x := y, mem := s.mem.write (s.x[7].toNat - 1) y[a.toNat], pc := s.pc + 2#9 }) ∧
    (8 ≤ a.toNat → exec (.push a) s = .next { s with run := .stopped (.invalidRegister a) }) ∧
    (a.toNat < 8 → s.x[7] = 0#8 → exec (.push a) s = .next { s with run := .stopped .stackOverflow })

/-- Spec/43_stack.md R111. StackUnderflow at and above SP_INIT is the spec's decision D6, and the wrap of POP
R7 is marked derived there. `y` is the register file after the load. -/
def Obligations.PopLoadsFromStackPointer : Prop :=
  ∀ (s : State) (a : Byte), encode (.pop a) = [0x46#8, a] ∧
    (∀ h : a.toNat < 8, s.x[7].toNat < s.spInit.toNat →
      ∀ y, y = s.x.set a.toNat (s.mem.read s.x[7].toNat) →
        exec (.pop a) s =
          .next { s with
            x := y.set 7 (BitVec.ofNat 8 ((y[7].toNat + 1) % 256))
            pc := s.pc + 2#9 }) ∧
    (8 ≤ a.toNat → exec (.pop a) s = .next { s with run := .stopped (.invalidRegister a) }) ∧
    (a.toNat < 8 → s.spInit.toNat ≤ s.x[7].toNat →
      exec (.pop a) s = .next { s with run := .stopped .stackUnderflow })

/-- Spec/44_control_flow.md R120: the target is any byte and is not checked. -/
def Obligations.JmpTransfers : Prop :=
  ∀ (s : State) (a : Byte), encode (.jmp a) = [0x54#8, a] ∧
    (∀ h : a.toNat < 8, exec (.jmp a) s = .next { s with pc := s.x[a.toNat].zeroExtend 9 }) ∧
    (8 ≤ a.toNat → exec (.jmp a) s = .next { s with run := .stopped (.invalidRegister a) })

/-- Spec/44_control_flow.md R121. That a JEQ not taken does not check its operand is the spec's decision
D8. -/
def Obligations.JeqTransfersWhenEqual : Prop :=
  ∀ (s : State) (a : Byte), encode (.jeq a) = [0x55#8, a] ∧
    (s.fl.getLsbD 0 = true →
      (∀ h : a.toNat < 8, exec (.jeq a) s = .next { s with pc := s.x[a.toNat].zeroExtend 9 }) ∧
      (8 ≤ a.toNat → exec (.jeq a) s = .next { s with run := .stopped (.invalidRegister a) })) ∧
    (s.fl.getLsbD 0 = false → exec (.jeq a) s = .next { s with pc := s.pc + 2#9 })

/-- Spec/44_control_flow.md R122. StackOverflow at 0 is the spec's decision D5; that `pc + 2` fits a byte and
that CALL R7 jumps to the decremented pointer are marked derived there. `y` is the register file after the
decrement. -/
def Obligations.CallPushesReturnAddress : Prop :=
  ∀ (s : State) (a : Byte), encode (.call a) = [0x50#8, a] ∧
    (∀ h : a.toNat < 8, s.x[7] ≠ 0#8 → s.pc.toNat ≤ 253 →
      ∀ y, y = s.x.set 7 (s.x[7] - 1#8) →
        ∃ r : Byte, r.toNat = s.pc.toNat + 2 ∧
          exec (.call a) s =
            .next { s with x := y, mem := s.mem.write (s.x[7].toNat - 1) r, pc := y[a.toNat].zeroExtend 9 }) ∧
    (8 ≤ a.toNat → exec (.call a) s = .next { s with run := .stopped (.invalidRegister a) }) ∧
    (a.toNat < 8 → s.x[7] = 0#8 → exec (.call a) s = .next { s with run := .stopped .stackOverflow })

/-- Spec/44_control_flow.md R123. StackUnderflow at and above SP_INIT is the spec's decision D6. -/
def Obligations.RetPopsProgramCounter : Prop :=
  ∀ s : State, encode .ret = [0x11#8] ∧
    (s.x[7].toNat < s.spInit.toNat →
      exec .ret s =
        .next { s with x := s.x.set 7 (s.x[7] + 1#8), pc := (s.mem.read s.x[7].toNat).zeroExtend 9 }) ∧
    (s.spInit.toNat ≤ s.x[7].toNat → exec .ret s = .next { s with run := .stopped .stackUnderflow })

/-- Spec/44_control_flow.md R124; that `pc` keeps the address of the HLT byte is the spec's decision D15. -/
def Obligations.HltHalts : Prop :=
  ∀ s : State, encode .hlt = [0x01#8] ∧ exec .hlt s = .next { s with run := .halted }

/-! ### The program counter -/

/-- Spec/41_execute_loop.md R84, the whole table: an instruction advances `pc` past itself, with no
wrap-around, or assigns it, never both; HLT and every stop leave it; and `pc = 256` is held and stops the next
step. -/
def Obligations.ProgramCounterAfterStep : Prop :=
  ∀ (i : Instr) (s t : State), s.run = .running → s.pc.toNat ≤ 253 → exec i s = .next t →
    (t.run ≠ .running → t.pc = s.pc) ∧
    (t.run = .running →
      (match i with
        | .ldi _ _ | .mul _ _ | .cmp _ _ => t.pc.toNat = s.pc.toNat + 3
        | .prn _ | .push _ | .pop _ => t.pc.toNat = s.pc.toNat + 2
        | .jeq a =>
          if s.fl.getLsbD 0 = true then ∃ h : a.toNat < 8, t.pc.toNat = s.x[a.toNat].toNat
          else t.pc.toNat = s.pc.toNat + 2
        | .jmp a | .call a => ∃ h : a.toNat < 8, t.pc.toNat = t.x[a.toNat].toNat
        | .ret => t.pc.toNat = (s.mem.read s.x[7].toNat).toNat
        | .hlt => False) ∧
      (t.pc.toNat = 256 → step t = .next { t with run := .stopped (.outOfRange 256) }))

/-! ### Stops -/

/-- Spec/60_exceptions.md R130 and R139 (precise stops are the spec's decision D7): a step that stops changes
`run` and nothing else. -/
def Obligations.StopsArePrecise : Prop :=
  ∀ (s t : State) (c : Cause), step s = .next t → t.run = .stopped c → t = { s with run := .stopped c }

/-- Spec/60_exceptions.md R131 to R137 (conditions of the spec's decisions D3, D5, D6 among them): which cause
a step can stop with, and when. No data access is out of range (spec/20_memory.md R47, derived there), and no
step stops with UnsupportedALUOp (R134, derived in spec/40_alu.md R74). -/
def Obligations.StopCauseTable : Prop :=
  ∀ s t : State, s.pc.toNat ≤ 256 → step s = .next t →
    (∀ n, t.run = .stopped (.outOfRange n) ↔ n = 256 ∧ 254 ≤ s.pc.toNat) ∧
    (∀ byte, t.run = .stopped (.unknownOpcode byte) ↔
      s.pc.toNat ≤ 253 ∧ byte = s.mem.read s.pc.toNat ∧
      byte ∉ [0x82#8, 0x47#8, 0xA2#8, 0x45#8, 0x46#8, 0x50#8, 0x11#8, 0xA7#8, 0x54#8, 0x55#8, 0x01#8]) ∧
    (∀ r, t.run = .stopped (.invalidRegister r) →
      8 ≤ r.toNat ∧ s.mem.read s.pc.toNat ∉ [0x11#8, 0x01#8] ∧
      (r = s.mem.read (s.pc.toNat + 1) ∨
        (r = s.mem.read (s.pc.toNat + 2) ∧ s.mem.read s.pc.toNat ∈ [0xA2#8, 0xA7#8]))) ∧
    (t.run = .stopped .stackOverflow → s.x[7] = 0#8 ∧ s.mem.read s.pc.toNat ∈ [0x45#8, 0x50#8]) ∧
    (t.run = .stopped .stackUnderflow →
      s.spInit.toNat ≤ s.x[7].toNat ∧ s.mem.read s.pc.toNat ∈ [0x46#8, 0x11#8]) ∧
    (∀ op, t.run ≠ .stopped (.unsupportedALUOp op))

/-- Spec/60_exceptions.md R138, the spec's decision D9: where several stops could be taken, the fetch's comes
first and hides everything else, whatever byte is at `pc` and whatever registers and memory hold; then
operand `a`, then operand `b`, then the stack's. -/
def Obligations.StopPriority : Prop :=
  (∀ s : State, s.run = .running → 254 ≤ s.pc.toNat → s.pc.toNat ≤ 256 →
    step s = .next { s with run := .stopped (.outOfRange 256) }) ∧
  (∀ (s : State) (a b : Byte), 8 ≤ a.toNat → 8 ≤ b.toNat →
    exec (.mul a b) s = .next { s with run := .stopped (.invalidRegister a) } ∧
    exec (.cmp a b) s = .next { s with run := .stopped (.invalidRegister a) }) ∧
  (∀ (s : State) (a : Byte), 8 ≤ a.toNat → s.x[7] = 0#8 →
    exec (.push a) s = .next { s with run := .stopped (.invalidRegister a) } ∧
    exec (.call a) s = .next { s with run := .stopped (.invalidRegister a) }) ∧
  (∀ (s : State) (a : Byte), 8 ≤ a.toNat → s.spInit.toNat ≤ s.x[7].toNat →
    exec (.pop a) s = .next { s with run := .stopped (.invalidRegister a) })

/-! ### Frames, over every instruction -/

/-- Spec/10_state.md R23 (derived there), the register columns: a register other than the named destination,
and other than `x[7]` where the stack moves, keeps its value. -/
def Obligations.RegisterFrame : Prop :=
  ∀ (i : Instr) (s t : State) (r : Nat) (hr : r < 8), exec i s = .next t →
    match i with
    | .ldi a _ | .mul a _ => r ≠ a.toNat → t.x[r] = s.x[r]
    | .pop a => r ≠ a.toNat → r ≠ 7 → t.x[r] = s.x[r]
    | .push _ | .call _ | .ret => r ≠ 7 → t.x[r] = s.x[r]
    | .prn _ | .cmp _ _ | .jmp _ | .jeq _ | .hlt => t.x[r] = s.x[r]

/-- Spec/20_memory.md R37 (derived there): only PUSH and CALL store; every other instruction leaves every
byte of memory. -/
def Obligations.MemoryFrameOfNonStores : Prop :=
  ∀ (i : Instr) (s t : State), exec i s = .next t → (∀ a, i ≠ .push a) → (∀ a, i ≠ .call a) →
    t.mem = s.mem ∧ ∀ addr, t.mem.read addr = s.mem.read addr

/-- Spec/43_stack.md R110 and spec/44_control_flow.md R122 (the stop at 0 is the spec's decision D5): PUSH and
CALL store one byte, at `x[7] - 1`, and every other address reads as before; where they stop, all of
memory does. Memory is in its canonical form. -/
def Obligations.MemoryFrameOfStores : Prop :=
  ∀ (s t : State) (a : Byte), Memory.wf s.mem →
    (exec (.push a) s = .next t ∨ exec (.call a) s = .next t) →
    (∀ addr, s.x[7] ≠ 0#8 → addr ≠ s.x[7].toNat - 1 → t.mem.read addr = s.mem.read addr) ∧
    (s.x[7] = 0#8 ∨ 8 ≤ a.toNat → ∀ addr, t.mem.read addr = s.mem.read addr)

/-- Spec/10_state.md R15: only CMP mutates FL, it writes all of it at once, and a stop leaves it. -/
def Obligations.OnlyCmpWritesFlags : Prop :=
  ∀ (i : Instr) (s t : State), exec i s = .next t →
    ((∀ a b, i ≠ .cmp a b) → t.fl = s.fl) ∧
    (∀ c, s.run = .running → t.run = .stopped c → t.fl = s.fl) ∧
    (∀ a b, i = .cmp a b → a.toNat < 8 → b.toNat < 8 →
      ∀ f : Byte, exec i { s with fl := f } = .next t)

/-- Spec/10_state.md R23 (derived there), the columns of output and run state, and log 1: only PRN emits; only
HLT halts; any other change of `run` is a stop; no instruction writes SP_INIT. -/
def Obligations.OutputAndRunFrame : Prop :=
  ∀ (i : Instr) (s t : State), exec i s = .next t →
    ((∀ a, i ≠ .prn a) → t.out = s.out) ∧
    (i ≠ .hlt → t.run = s.run ∨ ∃ c, t = { s with run := .stopped c }) ∧
    t.spInit = s.spInit

/-! ### Invariants -/

/-- Spec/10_state.md R14, R16 and spec/20_memory.md R30 (the width of `pc` is the spec's decision D4, the
shape of FL D11; the canonical form is this model's, log 4): every step keeps `pc` in 0 to 256, FL one of 0, 1,
2, 4, and memory canonical and inside addresses 0 to 255. -/
def Obligations.StepKeepsInv : Prop :=
  ∀ s t : State, s.Inv → step s = .next t → t.Inv

/-- The same invariant holds after reset with every SP_INIT and every image that loads
(spec/70_reset_and_hazards.md R160, R163). -/
def Obligations.LoadGivesInv : Prop :=
  ∀ (spInit : Byte) (image : List Byte) (t : State), State.load spInit image = .next t → t.Inv

/-- The same invariant holds of the model's reset state (its SP_INIT is this model's choice, log 1). -/
def Obligations.ResetHasInv : Prop := State.reset.Inv

/-- Spec/10_state.md R14 (the shape of FL is the spec's decision D11) and spec/90_conflicts.md C2: once exactly
one flag is set, exactly one is set after every step; and a CMP that completes sets exactly one. -/
def Obligations.ExactlyOneFlagAfterCmp : Prop :=
  (∀ s t : State, s.fl ∈ [1#8, 2#8, 4#8] → step s = .next t → t.fl ∈ [1#8, 2#8, 4#8]) ∧
  (∀ (s t : State) (a b : Byte), a.toNat < 8 → b.toNat < 8 → exec (.cmp a b) s = .next t →
    t.fl ∈ [1#8, 2#8, 4#8])

/-- Spec/43_stack.md R112 (c), spec/90_conflicts.md C14, C16 (the bound is the spec's decision D6): after every
completed RET, and every completed POP but POP R7, the stack pointer is at most SP_INIT. -/
def Obligations.PopNeverPassesSpInit : Prop :=
  ∀ (s t : State) (a : Byte), s.run = .running → t.run = .running → a.toNat ≠ 7 →
    (exec (.pop a) s = .next t ∨ exec .ret s = .next t) → t.x[7].toNat ≤ t.spInit.toNat

/-! ### Memory accesses -/

/-- Spec/20_memory.md R31, R32 (never reduced, never clamped: the spec's decision D2): a write inside memory is
read back and leaves every other cell and the canonical form; an access above 255 stops with that address. -/
def Obligations.MemReadAfterMemWrite : Prop :=
  ∀ (s : State) (addr : Nat) (v : Byte), Memory.wf s.mem →
    (addr ≤ 255 → ∃ m, Memory.wf m ∧ s.memWrite addr v = .ok { s with mem := m } ∧
      State.memRead { s with mem := m } addr = .ok v ∧
      ∀ other, other ≠ addr → State.memRead { s with mem := m } other = s.memRead other) ∧
    (255 < addr → s.memWrite addr v = .error (.outOfRange addr) ∧
      s.memRead addr = .error (.outOfRange addr))

/-- Spec/20_memory.md R44: a byte stored by PUSH where the next instruction starts is the opcode the next step
fetches; the byte is `x[a]` as PUSH leaves it. -/
def Obligations.StoreSeenByNextFetch : Prop :=
  ∀ (s t : State) (a : Byte) (h : a.toNat < 8), Memory.wf s.mem →
    s.x[7] ≠ 0#8 → s.pc.toNat ≤ 251 → s.x[7].toNat - 1 = s.pc.toNat + 2 → exec (.push a) s = .next t →
    ∃ p q, t.fetch = .ok (t.x[a.toNat], p, q)

/-! ### Reset -/

/-- Spec/10_state.md R22 and spec/70_reset_and_hazards.md R163, for every SP_INIT and every image of at most
256 bytes. Register 7 at SP_INIT is the spec's decision D1 (spec/90_conflicts.md C3), the empty output is
marked the spec's own in R22, and that SP_INIT is kept in the field `spInit` is this model's choice (log 1). -/
def Obligations.ResetState : Prop :=
  ∀ (spInit : Byte) (image : List Byte), image.length ≤ 256 →
    ∃ t, State.load spInit image = .next t ∧
      t.x = #v[0#8, 0#8, 0#8, 0#8, 0#8, 0#8, 0#8, spInit] ∧ t.pc = 0#9 ∧ t.fl = 0#8 ∧
      t.run = .running ∧ t.out = [] ∧ t.spInit = spInit ∧
      (∀ i (h : i < image.length), t.mem.read i = image[i]) ∧
      (∀ i, image.length ≤ i → t.mem.read i = 0#8)

/-- Spec/70_reset_and_hazards.md R163 (refusing is the spec's decision D19): an image of more than 256 bytes is
refused. -/
def Obligations.LongImageRefused : Prop :=
  ∀ (spInit : Byte) (image : List Byte), 256 < image.length →
    State.load spInit image = .refused (.imageTooLong image.length)

/-- Log 5: an instruction word placed for the next fetch is what the next step runs, and only the three bytes
at `pc` are touched. -/
def Obligations.PlacedWordIsRunNext : Prop :=
  ∀ (s : State) (nbits w : Nat) (i : Instr), Memory.wf s.mem → s.run = .running → s.pc.toNat ≤ 253 →
    decodeTableWord nbits w = some i →
    step (s.withFetchWord nbits w) = exec i (s.withFetchWord nbits w) ∧
    (∃ m, s.withFetchWord nbits w = { s with mem := m } ∧
      ∀ addr, addr < s.pc.toNat ∨ s.pc.toNat + 3 ≤ addr → m.read addr = s.mem.read addr)

/-! ### The ALU -/

/-- Spec/40_alu.md R72: the low 8 bits of the product, no flag, no error. -/
def Obligations.AluMultiplies : Prop :=
  ∀ va vb : Byte, ∃ r : Byte, alu .mul va vb = .ok { res := some r, flags := none } ∧
    r.toNat = va.toNat * vb.toNat % 256

/-- Spec/40_alu.md R71: the sum modulo 256, no flag, no error. No opcode selects it: the spec's decision
D13. -/
def Obligations.AluAdds : Prop :=
  ∀ va vb : Byte, ∃ r : Byte, alu .add va vb = .ok { res := some r, flags := none } ∧
    r.toNat = (va.toNat + vb.toNat) % 256

/-- Spec/40_alu.md R73 (direction: the spec's decision D10): the comparison is unsigned and sets exactly one
flag; it drives no result. -/
def Obligations.AluCompares : Prop :=
  ∀ va vb : Byte, ∃ f : BitVec 3, alu .cmp va vb = .ok { res := none, flags := some f } ∧
    (f.getLsbD 0 = true ↔ va.toNat = vb.toNat) ∧ (f.getLsbD 1 = true ↔ va.toNat > vb.toNat) ∧
    (f.getLsbD 2 = true ↔ va.toNat < vb.toNat)

/-- Spec/40_alu.md R70, R74: the ALU fails exactly on a request other than ADD, MUL, CMP, and then with
UnsupportedALUOp. That the error records the selector is spec/60_exceptions.md R131, the spec's decision D16;
that the other selectors are told apart, by a number, is this model's choice (log 8). -/
def Obligations.AluRejectsOtherOperations : Prop :=
  ∀ (op : AluOp) (va vb : Byte) (c : Cause),
    alu op va vb = .error c ↔ op ∉ [.add, .mul, .cmp] ∧ c = .unsupportedALUOp op

/-! ### The stack over two steps -/

/-- Spec/43_stack.md R112 (a): PUSH then POP to another register round-trips the value and the stack
pointer (the guards are the spec's decisions D5, D6). -/
def Obligations.PushPopRoundTrip : Prop :=
  ∀ (s : State) (a c : Byte) (ha : a.toNat < 8) (hc : c.toNat < 8), Memory.wf s.mem →
    a.toNat ≠ 7 → c.toNat ≠ 7 → 1 ≤ s.x[7].toNat → s.x[7].toNat ≤ s.spInit.toNat →
    ∃ t u, exec (.push a) s = .next t ∧ exec (.pop c) t = .next u ∧ u.run = s.run ∧
      u.x = s.x.set c.toNat s.x[a.toNat] ∧ u.mem.read (s.x[7].toNat - 1) = s.x[a.toNat]

/-- Spec/43_stack.md R112 (d) (derived there): the stack is last-in first-out. -/
def Obligations.StackIsLastInFirstOut : Prop :=
  ∀ (s : State) (a b c d : Byte) (ha : a.toNat < 7) (hb : b.toNat < 7) (hc : c.toNat < 7) (hd : d.toNat < 7),
    Memory.wf s.mem → c ≠ d → 2 ≤ s.x[7].toNat → s.x[7].toNat ≤ s.spInit.toNat →
    ∃ t u v w, exec (.push a) s = .next t ∧ exec (.push b) t = .next u ∧ exec (.pop c) u = .next v ∧
      exec (.pop d) v = .next w ∧
      w.x = (s.x.set c.toNat s.x[b.toNat]).set d.toNat s.x[a.toNat]

/-- Spec/44_control_flow.md R122, R123, R125: a subroutine that leaves `x[7]` and the return address as it
found them returns to the instruction after the CALL, with the stack pointer as before (the guards are the
spec's decisions D5, D6). -/
def Obligations.CallThenRetReturns : Prop :=
  ∀ (s t u : State) (a : Byte), Memory.wf s.mem → a.toNat < 8 → s.pc.toNat ≤ 253 →
    1 ≤ s.x[7].toNat → s.x[7].toNat ≤ s.spInit.toNat → exec (.call a) s = .next t →
    u.x[7] = t.x[7] → u.spInit = t.spInit → u.mem.read u.x[7].toNat = t.mem.read t.x[7].toNat →
    ∃ v, exec .ret u = .next v ∧ v.pc.toNat = s.pc.toNat + 2 ∧ v.x[7] = s.x[7]

/-! ### What no instruction can read -/

/-- Spec/10_state.md R19: the output stream is not readable by any instruction; a step appends to it and does
the same whatever it holds. -/
def Obligations.OutputIsUnread : Prop :=
  ∀ (s t : State) (o : List Byte), step s = .next t →
    ∃ more, t.out = s.out ++ more ∧ step { s with out := o } = .next { t with out := o ++ more }

/-- Spec/10_state.md R15 (derived there): only bit E of FL is read. A machine whose flags differ in other bits
does the same, but for FL itself, which stays as it was or is written whole. -/
def Obligations.OnlyFlagEIsRead : Prop :=
  ∀ (s t : State) (f : Byte), f.getLsbD 0 = s.fl.getLsbD 0 → step s = .next t →
    (t.fl = s.fl ∧ step { s with fl := f } = .next { t with fl := f }) ∨
      step { s with fl := f } = .next t

/-- Spec/92_eei_decisions.md D1 and log 1: SP_INIT matters to no instruction but POP and RET. -/
def Obligations.SpInitOnlyBoundsPops : Prop :=
  ∀ (i : Instr) (s t : State) (v : Byte), (∀ a, i ≠ .pop a) → i ≠ .ret → exec i s = .next t →
    exec i { s with spInit := v } = .next { t with spInit := v }

/-! ### Runs -/

/-- Spec/10_state.md R17, spec/41_execute_loop.md R85 (the spec's decision D15): once a run has ended, no
number of further steps changes anything. -/
def Obligations.EndedRunStays : Prop :=
  ∀ (s : State) (j k : Nat), (runFor j s).ended = true → runFor (j + k) s = runFor j s

/-- Over a run of any length from a state of the invariant, the invariant holds, the output only grows, and
SP_INIT is as at the start (spec/10_state.md R19; log 1 for SP_INIT). -/
def Obligations.RunKeepsInvAndOutput : Prop :=
  ∀ (s : State) (k : Nat), s.Inv →
    (runFor k s).Inv ∧ (∃ more, (runFor k s).out = s.out ++ more) ∧ (runFor k s).spInit = s.spInit
end

