-- ==== Sys2Proof/Laws/Memory.lean ====
section
/-! SUPPORT. Laws of the memory as data: a read after a write, the canonical form kept by every
operation, and equal reads giving equal memories. -/

namespace Sys2Proof.Machine

@[simp] theorem Memory.read_nil (a : Nat) : Memory.read [] a = Memory.unlisted := rfl

theorem Memory.read_cons (k : Nat) (v : Byte) (rest : Memory) (a : Nat) :
    Memory.read ((k, v) :: rest) a = if k = a then v else Memory.read rest a := rfl

/-- An address that no cell lists reads as the unlisted value. -/
theorem Memory.read_unlisted {m : Memory} {a : Nat} (h : ∀ c ∈ m, c.1 ≠ a) :
    Memory.read m a = Memory.unlisted := by
  induction m with
  | nil => rfl
  | cons c rest ih =>
    obtain ⟨k, v⟩ := c
    have hk : k ≠ a := h (k, v) (by simp)
    rw [Memory.read_cons, if_neg hk]
    exact ih fun d hd => h d (by simp [hd])

/-- Strictly rising addresses: every later cell lies above the first. -/
theorem Memory.wf_cons {k : Nat} {v : Byte} {rest : Memory} (h : Memory.wf ((k, v) :: rest)) :
    (∀ c ∈ rest, k < c.1) ∧ k < 256 ∧ v ≠ Memory.unlisted ∧ Memory.wf rest := by
  obtain ⟨hp, hc⟩ := h
  rw [List.pairwise_cons] at hp
  exact ⟨hp.1, (hc (k, v) (by simp)).1, (hc (k, v) (by simp)).2, hp.2,
    fun c hm => hc c (by simp [hm])⟩

/-- A cell in front of later cells that all lie above it is read back. -/
theorem Memory.read_consCell (a : Nat) (v : Byte) {rest : Memory} (h : ∀ c ∈ rest, a < c.1)
    (b : Nat) :
    Memory.read (Memory.consCell a v rest) b = if b = a then v else Memory.read rest b := by
  have hr : Memory.read rest a = Memory.unlisted :=
    Memory.read_unlisted fun c hc => Nat.ne_of_gt (h c hc)
  unfold Memory.consCell
  split
  · split <;> simp_all
  · rw [Memory.read_cons]; simp [eq_comm]

theorem Memory.mem_consCell {a : Nat} {v : Byte} {rest : Memory} {c : Host.Cell}
    (h : c ∈ Memory.consCell a v rest) : (c = (a, v) ∧ v ≠ Memory.unlisted) ∨ c ∈ rest := by
  unfold Memory.consCell at h
  split at h
  · exact .inr h
  · rcases List.mem_cons.mp h with h | h
    · exact .inl ⟨h, by assumption⟩
    · exact .inr h

theorem Memory.wf_consCell {a : Nat} (v : Byte) {rest : Memory} (ha : a < 256)
    (h : ∀ c ∈ rest, a < c.1) (hw : Memory.wf rest) : Memory.wf (Memory.consCell a v rest) := by
  unfold Memory.consCell
  split
  · exact hw
  · exact ⟨List.pairwise_cons.mpr ⟨h, hw.1⟩, by
      intro c hc
      rcases List.mem_cons.mp hc with rfl | hc
      · exact ⟨ha, by assumption⟩
      · exact hw.2 c hc⟩

/-- A read after a write (spec/20_memory.md R31, R32): the written byte there, the old byte elsewhere. -/
theorem Memory.read_write {m : Memory} (hw : Memory.wf m) (a : Nat) (v : Byte) (b : Nat) :
    Memory.read (Memory.write m a v) b = if b = a then v else Memory.read m b := by
  induction m with
  | nil => exact Memory.read_consCell a v (by simp) b
  | cons c rest ih =>
    obtain ⟨k, w⟩ := c
    obtain ⟨hlt, -, -, hrest⟩ := Memory.wf_cons hw
    unfold Memory.write
    split
    · rename_i hak
      refine Memory.read_consCell a v ?_ b
      intro c hc
      rcases List.mem_cons.mp hc with rfl | hc
      · exact hak
      · exact Nat.lt_trans hak (hlt c hc)
    · split
      · rename_i hak
        subst hak
        rw [Memory.read_consCell a v hlt b, Memory.read_cons]
        split
        · rfl
        · rw [if_neg (fun e => by simp_all)]
      · rename_i hak
        rw [Memory.read_cons, Memory.read_cons, ih hrest]
        by_cases hkb : k = b
        · have : ¬ b = a := fun e => hak (by omega)
          simp [hkb, this]
        · simp [hkb]

theorem Memory.mem_write {m : Memory} {a : Nat} {v : Byte} {c : Host.Cell}
    (h : c ∈ Memory.write m a v) : (c = (a, v) ∧ v ≠ Memory.unlisted) ∨ c ∈ m := by
  induction m with
  | nil => exact Memory.mem_consCell h
  | cons d rest ih =>
    obtain ⟨k, w⟩ := d
    unfold Memory.write at h
    split at h
    · exact Memory.mem_consCell h
    · split at h
      · exact (Memory.mem_consCell h).imp_right (List.mem_cons_of_mem _)
      · rcases List.mem_cons.mp h with rfl | h
        · exact .inr (by simp)
        · exact (ih h).imp_right (List.mem_cons_of_mem _)

/-- A write below address 256 keeps the canonical form. -/
theorem Memory.wf_write {m : Memory} (hw : Memory.wf m) {a : Nat} (ha : a < 256) (v : Byte) :
    Memory.wf (Memory.write m a v) := by
  induction m with
  | nil => exact Memory.wf_consCell v ha (by simp) hw
  | cons d rest ih =>
    obtain ⟨k, w⟩ := d
    obtain ⟨hlt, hk, hwv, hrest⟩ := Memory.wf_cons hw
    unfold Memory.write
    split
    · rename_i hak
      refine Memory.wf_consCell v ha ?_ hw
      intro c hc
      rcases List.mem_cons.mp hc with rfl | hc
      · exact hak
      · exact Nat.lt_trans hak (hlt c hc)
    · split
      · rename_i hak
        subst hak
        exact Memory.wf_consCell v ha hlt hrest
      · rename_i hna hne
        refine ⟨List.pairwise_cons.mpr ⟨?_, (ih hrest).1⟩, ?_⟩
        · intro c hc
          rcases Memory.mem_write hc with ⟨rfl, -⟩ | hc
          · show k < a; omega
          · exact hlt c hc
        · intro c hc
          rcases List.mem_cons.mp hc with rfl | hc
          · exact ⟨hk, hwv⟩
          · exact (ih hrest).2 c hc

theorem Memory.wf_nil : Memory.wf [] := by simp [Memory.wf]

/-- Placing bytes keeps the canonical form. -/
theorem Memory.wf_place {m : Memory} (hw : Memory.wf m) (a : Nat) (bytes : List Byte) :
    Memory.wf (Memory.place m a bytes) := by
  induction bytes generalizing m a with
  | nil => exact hw
  | cons v rest ih =>
    unfold Memory.place
    split
    · rename_i ha
      exact ih (Memory.wf_write hw ha v) (a + 1)
    · exact ih hw (a + 1)

/-- What an address reads as after bytes are placed inside the memory: the byte placed there, else what it
read before. -/
theorem Memory.read_place {m : Memory} (hw : Memory.wf m) (a : Nat) (bytes : List Byte)
    (hin : a + bytes.length ≤ 256) (b : Nat) :
    Memory.read (Memory.place m a bytes) b =
      if h : a ≤ b ∧ b < a + bytes.length then bytes[b - a]'(by omega) else Memory.read m b := by
  induction bytes generalizing m a with
  | nil =>
    have h : ¬ (a ≤ b ∧ b < a + ([] : List Byte).length) := by simp
    rw [dif_neg h]; rfl
  | cons v rest ih =>
    simp only [List.length_cons] at hin
    have ha : a < 256 := by omega
    unfold Memory.place
    rw [if_pos ha, ih (Memory.wf_write hw ha v) (a + 1) (by omega), Memory.read_write hw]
    by_cases h1 : a + 1 ≤ b ∧ b < a + 1 + rest.length
    · have h2 : a ≤ b ∧ b < a + (v :: rest).length := by simp; omega
      have h3 : b - a = (b - (a + 1)) + 1 := by omega
      rw [dif_pos h1, dif_pos h2]
      simp [h3]
    · by_cases hba : b = a
      · subst hba
        simp
      · have h2 : ¬ (a ≤ b ∧ b < a + (v :: rest).length) := by simp; omega
        rw [dif_neg h1, dif_neg h2, if_neg hba]

/-- The canonical form is canonical: memories that read the same at every address are equal lists. -/
theorem Memory.eq_of_read_eq {m n : Memory} (hm : Memory.wf m) (hn : Memory.wf n)
    (h : ∀ a, Memory.read m a = Memory.read n a) : m = n := by
  induction m generalizing n with
  | nil =>
    cases n with
    | nil => rfl
    | cons d rest =>
      obtain ⟨k, w⟩ := d
      have := h k
      rw [Memory.read_cons, if_pos rfl, Memory.read_nil] at this
      exact absurd this.symm (Memory.wf_cons hn).2.2.1
  | cons c rest ih =>
    obtain ⟨k, v⟩ := c
    obtain ⟨hlt, -, hv, hrest⟩ := Memory.wf_cons hm
    cases n with
    | nil =>
      have := h k
      rw [Memory.read_cons, if_pos rfl, Memory.read_nil] at this
      exact absurd this hv
    | cons d rest' =>
      obtain ⟨k', v'⟩ := d
      obtain ⟨hlt', -, hv', hrest'⟩ := Memory.wf_cons hn
      have low : ∀ {j : Nat} {r : Memory} {a : Nat}, (∀ c ∈ r, j < c.1) → a ≤ j →
          Memory.read r a = Memory.unlisted := fun hr ha =>
        Memory.read_unlisted fun c hc => by have := hr c hc; omega
      have hk : k = k' := by
        rcases Nat.lt_trichotomy k k' with hlt1 | heq | hlt1
        · have := h k
          rw [Memory.read_cons, if_pos rfl, Memory.read_cons, if_neg (by omega),
            low hlt' (by omega)] at this
          exact absurd this hv
        · exact heq
        · have := h k'
          rw [Memory.read_cons, if_neg (by omega), low hlt (by omega), Memory.read_cons,
            if_pos rfl] at this
          exact absurd this.symm hv'
      subst hk
      have hvv : v = v' := by
        have := h k
        rwa [Memory.read_cons, if_pos rfl, Memory.read_cons, if_pos rfl] at this
      subst hvv
      have : rest = rest' := ih hrest hrest' fun a => by
        by_cases hka : k = a
        · subst hka
          rw [low hlt (Nat.le_refl k), low hlt' (Nat.le_refl k)]
        · have := h a
          rwa [Memory.read_cons, if_neg hka, Memory.read_cons, if_neg hka] at this
      rw [this]

end Sys2Proof.Machine
end

