-- ==== Sys2Proof/Laws/State.lean ====
section
/-! SUPPORT. One lemma per field per update of the state, true by rfl, so that no later proof unfolds a
record update; and the reads of a register after each update. -/

namespace Sys2Proof.Machine

variable (s : State)

/-! ### `State.setReg` -/

@[simp] theorem State.setReg_x (i : Fin 8) (v : Byte) : (s.setReg i v).x = s.x.set i.val v := rfl
@[simp] theorem State.setReg_pc (i : Fin 8) (v : Byte) : (s.setReg i v).pc = s.pc := rfl
@[simp] theorem State.setReg_fl (i : Fin 8) (v : Byte) : (s.setReg i v).fl = s.fl := rfl
@[simp] theorem State.setReg_mem (i : Fin 8) (v : Byte) : (s.setReg i v).mem = s.mem := rfl
@[simp] theorem State.setReg_run (i : Fin 8) (v : Byte) : (s.setReg i v).run = s.run := rfl
@[simp] theorem State.setReg_out (i : Fin 8) (v : Byte) : (s.setReg i v).out = s.out := rfl
@[simp] theorem State.setReg_spInit (i : Fin 8) (v : Byte) : (s.setReg i v).spInit = s.spInit := rfl

/-! ### `State.setSp` -/

@[simp] theorem State.setSp_x (v : Byte) : (s.setSp v).x = s.x.set 7 v := rfl
@[simp] theorem State.setSp_pc (v : Byte) : (s.setSp v).pc = s.pc := rfl
@[simp] theorem State.setSp_fl (v : Byte) : (s.setSp v).fl = s.fl := rfl
@[simp] theorem State.setSp_mem (v : Byte) : (s.setSp v).mem = s.mem := rfl
@[simp] theorem State.setSp_run (v : Byte) : (s.setSp v).run = s.run := rfl
@[simp] theorem State.setSp_out (v : Byte) : (s.setSp v).out = s.out := rfl
@[simp] theorem State.setSp_spInit (v : Byte) : (s.setSp v).spInit = s.spInit := rfl

/-! ### `State.incrementSp` -/

@[simp] theorem State.incrementSp_x : (s.incrementSp).x = s.x.set 7 (s.sp + 1#8) := rfl
@[simp] theorem State.incrementSp_pc : (s.incrementSp).pc = s.pc := rfl
@[simp] theorem State.incrementSp_fl : (s.incrementSp).fl = s.fl := rfl
@[simp] theorem State.incrementSp_mem : (s.incrementSp).mem = s.mem := rfl
@[simp] theorem State.incrementSp_run : (s.incrementSp).run = s.run := rfl
@[simp] theorem State.incrementSp_out : (s.incrementSp).out = s.out := rfl
@[simp] theorem State.incrementSp_spInit : (s.incrementSp).spInit = s.spInit := rfl

/-! ### `State.setMem` -/

@[simp] theorem State.setMem_x (m : Memory) : (s.setMem m).x = s.x := rfl
@[simp] theorem State.setMem_pc (m : Memory) : (s.setMem m).pc = s.pc := rfl
@[simp] theorem State.setMem_fl (m : Memory) : (s.setMem m).fl = s.fl := rfl
@[simp] theorem State.setMem_mem (m : Memory) : (s.setMem m).mem = m := rfl
@[simp] theorem State.setMem_run (m : Memory) : (s.setMem m).run = s.run := rfl
@[simp] theorem State.setMem_out (m : Memory) : (s.setMem m).out = s.out := rfl
@[simp] theorem State.setMem_spInit (m : Memory) : (s.setMem m).spInit = s.spInit := rfl

/-! ### `State.advance` -/

@[simp] theorem State.advance_x (n : Nat) : (s.advance n).x = s.x := rfl
@[simp] theorem State.advance_pc (n : Nat) : (s.advance n).pc = s.pc + BitVec.ofNat 9 (1 + n) := rfl
@[simp] theorem State.advance_fl (n : Nat) : (s.advance n).fl = s.fl := rfl
@[simp] theorem State.advance_mem (n : Nat) : (s.advance n).mem = s.mem := rfl
@[simp] theorem State.advance_run (n : Nat) : (s.advance n).run = s.run := rfl
@[simp] theorem State.advance_out (n : Nat) : (s.advance n).out = s.out := rfl
@[simp] theorem State.advance_spInit (n : Nat) : (s.advance n).spInit = s.spInit := rfl

/-! ### `State.jumpTo` -/

@[simp] theorem State.jumpTo_x (v : Byte) : (s.jumpTo v).x = s.x := rfl
@[simp] theorem State.jumpTo_pc (v : Byte) : (s.jumpTo v).pc = v.setWidth 9 := rfl
@[simp] theorem State.jumpTo_fl (v : Byte) : (s.jumpTo v).fl = s.fl := rfl
@[simp] theorem State.jumpTo_mem (v : Byte) : (s.jumpTo v).mem = s.mem := rfl
@[simp] theorem State.jumpTo_run (v : Byte) : (s.jumpTo v).run = s.run := rfl
@[simp] theorem State.jumpTo_out (v : Byte) : (s.jumpTo v).out = s.out := rfl
@[simp] theorem State.jumpTo_spInit (v : Byte) : (s.jumpTo v).spInit = s.spInit := rfl

/-! ### `State.emit` -/

@[simp] theorem State.emit_x (v : Byte) : (s.emit v).x = s.x := rfl
@[simp] theorem State.emit_pc (v : Byte) : (s.emit v).pc = s.pc := rfl
@[simp] theorem State.emit_fl (v : Byte) : (s.emit v).fl = s.fl := rfl
@[simp] theorem State.emit_mem (v : Byte) : (s.emit v).mem = s.mem := rfl
@[simp] theorem State.emit_run (v : Byte) : (s.emit v).run = s.run := rfl
@[simp] theorem State.emit_out (v : Byte) : (s.emit v).out = s.out ++ [v] := rfl
@[simp] theorem State.emit_spInit (v : Byte) : (s.emit v).spInit = s.spInit := rfl

/-! ### `State.halt` -/

@[simp] theorem State.halt_x : (s.halt).x = s.x := rfl
@[simp] theorem State.halt_pc : (s.halt).pc = s.pc := rfl
@[simp] theorem State.halt_fl : (s.halt).fl = s.fl := rfl
@[simp] theorem State.halt_mem : (s.halt).mem = s.mem := rfl
@[simp] theorem State.halt_run : (s.halt).run = .halted := rfl
@[simp] theorem State.halt_out : (s.halt).out = s.out := rfl
@[simp] theorem State.halt_spInit : (s.halt).spInit = s.spInit := rfl

/-! ### `State.setFlags` -/

@[simp] theorem State.setFlags_x (f : BitVec 3) : (s.setFlags f).x = s.x := rfl
@[simp] theorem State.setFlags_pc (f : BitVec 3) : (s.setFlags f).pc = s.pc := rfl
@[simp] theorem State.setFlags_fl (f : BitVec 3) : (s.setFlags f).fl = f.setWidth 8 := rfl
@[simp] theorem State.setFlags_mem (f : BitVec 3) : (s.setFlags f).mem = s.mem := rfl
@[simp] theorem State.setFlags_run (f : BitVec 3) : (s.setFlags f).run = s.run := rfl
@[simp] theorem State.setFlags_out (f : BitVec 3) : (s.setFlags f).out = s.out := rfl
@[simp] theorem State.setFlags_spInit (f : BitVec 3) : (s.setFlags f).spInit = s.spInit := rfl

/-! ### Reading a register after an update -/

theorem State.getReg_eq (i : Fin 8) : s.getReg i = s.x[i.val] := rfl

theorem State.sp_eq : s.sp = s.x[7] := rfl

@[simp] theorem State.getReg_setReg_same (i : Fin 8) (v : Byte) : (s.setReg i v).getReg i = v := by
  simp [State.getReg]

theorem State.getReg_setReg_ne {i j : Fin 8} (v : Byte) (h : i ≠ j) :
    (s.setReg i v).getReg j = s.getReg j := by
  have : i.val ≠ j.val := fun e => h (Fin.ext e)
  simp [State.getReg, this]

@[simp] theorem State.getReg_setSp_spIndex (v : Byte) : (s.setSp v).getReg spIndex = v := by
  simp [State.setSp]

theorem State.getReg_setSp_ne {j : Fin 8} (v : Byte) (h : j ≠ spIndex) :
    (s.setSp v).getReg j = s.getReg j := s.getReg_setReg_ne v h.symm

@[simp] theorem State.sp_setSp (v : Byte) : (s.setSp v).sp = v := by simp [State.sp]

@[simp] theorem State.sp_incrementSp : s.incrementSp.sp = s.sp + 1#8 := by simp [State.incrementSp]

@[simp] theorem State.getReg_setMem (m : Memory) (i : Fin 8) : (s.setMem m).getReg i = s.getReg i := rfl

@[simp] theorem State.sp_setMem (m : Memory) : (s.setMem m).sp = s.sp := rfl

@[simp] theorem State.getReg_advance (n : Nat) (i : Fin 8) : (s.advance n).getReg i = s.getReg i := rfl

@[simp] theorem State.getReg_jumpTo (v : Byte) (i : Fin 8) : (s.jumpTo v).getReg i = s.getReg i := rfl

@[simp] theorem State.getReg_emit (v : Byte) (i : Fin 8) : (s.emit v).getReg i = s.getReg i := rfl

@[simp] theorem State.getReg_halt (i : Fin 8) : (s.halt).getReg i = s.getReg i := rfl

@[simp] theorem State.getReg_setFlags (f : BitVec 3) (i : Fin 8) : (s.setFlags f).getReg i = s.getReg i := rfl

/-- Reset with no image and the recommended SP_INIT is the reset state (spec/10_state.md R22). -/
theorem State.load_nil : State.load Config.recommendedSpInit [] = .next State.reset := rfl

end Sys2Proof.Machine
end

