-- ==== Sys2Proof/Laws/Ops.lean ====
section
/-! SUPPORT. One lemma per shared operation that says once everything it can do: what makes it succeed,
with which result, and with which stop it fails otherwise. Provers cite these and unfold no operation. -/

namespace Sys2Proof.Machine

variable (s : State)

/-! ### Outcomes -/

@[simp] theorem State.settle_ok (t : State) : s.settle (.ok t) = .next t := rfl

@[simp] theorem State.settle_error (c : Cause) : s.settle (.error c) = raise c s := rfl

/-- A settled effect always answers a next state: the effect's, or the stop in the old state. -/
theorem State.settle_next {s t : State} {e : Except Cause State} (h : s.settle e = .next t) :
    e = .ok t ∨ ∃ c, e = .error c ∧ t = { s with run := .stopped c } := by
  cases e with
  | ok u => exact .inl (by simpa [State.settle] using h)
  | error c => exact .inr ⟨c, rfl, by simpa [State.settle, raise] using h.symm⟩

/-- A chain of operations fails with the first failure or runs on with the first result. -/
@[simp] theorem bind_ok {α β : Type} (v : α) (f : α → Except Cause β) :
    (Except.ok v >>= f) = f v := rfl

@[simp] theorem bind_error {α β : Type} (c : Cause) (f : α → Except Cause β) :
    ((Except.error c : Except Cause α) >>= f) = .error c := rfl

@[simp] theorem pure_eq_ok {α : Type} (v : α) : (pure v : Except Cause α) = .ok v := rfl

/-- What a successful chain did: its first part succeeded, and so did the rest. -/
theorem bind_eq_ok {α β : Type} {x : Except Cause α} {f : α → Except Cause β} {r : β}
    (h : (x >>= f) = .ok r) : ∃ v, x = .ok v ∧ f v = .ok r := by
  cases x with
  | ok v => exact ⟨v, rfl, h⟩
  | error c => exact absurd h (by simp)

/-! ### Operands -/

theorem regIndex_legal {a : Byte} (h : a.toNat < 8) : regIndex a = .ok ⟨a.toNat, h⟩ := by
  simp [regIndex, h]

theorem regIndex_illegal {a : Byte} (h : 8 ≤ a.toNat) : regIndex a = .error (.invalidRegister a) := by
  simp [regIndex, Nat.not_lt.mpr h]

/-- Everything `regIndex` can do (spec/10_state.md R12). -/
theorem regIndex_cases (a : Byte) :
    (∃ h : a.toNat < 8, regIndex a = .ok ⟨a.toNat, h⟩) ∨
      (8 ≤ a.toNat ∧ regIndex a = .error (.invalidRegister a)) := by
  by_cases h : a.toNat < 8
  · exact .inl ⟨h, regIndex_legal h⟩
  · exact .inr ⟨Nat.not_lt.mp h, regIndex_illegal (Nat.not_lt.mp h)⟩

/-! ### Memory accesses -/

theorem State.memRead_inside {addr : Nat} (h : addr < 256) :
    s.memRead addr = .ok (s.mem.read addr) := by
  simp [State.memRead, h]

theorem State.memRead_outside {addr : Nat} (h : 256 ≤ addr) :
    s.memRead addr = .error (.outOfRange addr) := by
  simp [State.memRead, Nat.not_lt.mpr h]

theorem State.memWrite_inside {addr : Nat} (v : Byte) (h : addr < 256) :
    s.memWrite addr v = .ok (s.setMem (s.mem.write addr v)) := by
  simp [State.memWrite, h]

theorem State.memWrite_outside {addr : Nat} (v : Byte) (h : 256 ≤ addr) :
    s.memWrite addr v = .error (.outOfRange addr) := by
  simp [State.memWrite, Nat.not_lt.mpr h]

/-- A data access through a byte register is always inside memory (spec/20_memory.md R47). -/
theorem State.memWrite_byte (a v : Byte) :
    s.memWrite a.toNat v = .ok (s.setMem (s.mem.write a.toNat v)) :=
  s.memWrite_inside v a.isLt

/-! ### The stack pointer -/

/-- Everything `decrementSp` can do (spec/60_exceptions.md R136). -/
theorem State.decrementSp_cases :
    (s.sp ≠ 0#8 ∧ s.decrementSp = .ok (s.setSp (s.sp - 1#8))) ∨
      (s.sp = 0#8 ∧ s.decrementSp = .error .stackOverflow) := by
  by_cases h : s.sp = 0#8 <;> simp [State.decrementSp, h]

/-- Everything `topOfStack` can do (spec/60_exceptions.md R137). -/
theorem State.topOfStack_cases :
    (s.sp.toNat < s.spInit.toNat ∧ s.topOfStack = .ok (s.mem.read s.sp.toNat)) ∨
      (s.spInit.toNat ≤ s.sp.toNat ∧ s.topOfStack = .error .stackUnderflow) := by
  by_cases h : s.spInit.toNat ≤ s.sp.toNat
  · exact .inr ⟨h, by simp [State.topOfStack, h]⟩
  · exact .inl ⟨Nat.not_le.mp h, by
      rw [State.topOfStack, if_neg h, State.memRead_inside _ s.sp.isLt]⟩

theorem State.decrementSp_ok (h : s.x[7] ≠ 0#8) : s.decrementSp = .ok (s.setSp (s.x[7] - 1#8)) :=
  s.decrementSp_cases.elim (fun p => p.2) (fun p => absurd p.1 h)

theorem State.decrementSp_zero (h : s.x[7] = 0#8) : s.decrementSp = .error .stackOverflow :=
  s.decrementSp_cases.elim (fun p => absurd h p.1) (fun p => p.2)

theorem State.topOfStack_ok (h : s.x[7].toNat < s.spInit.toNat) :
    s.topOfStack = .ok (s.mem.read s.x[7].toNat) :=
  s.topOfStack_cases.elim (fun p => p.2) (fun p => absurd h (Nat.not_lt.mpr p.1))

theorem State.topOfStack_empty (h : s.spInit.toNat ≤ s.x[7].toNat) :
    s.topOfStack = .error .stackUnderflow :=
  s.topOfStack_cases.elim (fun p => absurd h (Nat.not_le.mpr p.1)) (fun p => p.2)

/-- The guarded decrement never wraps (spec/40_alu.md R76). -/
theorem toNat_sub_one {v : Byte} (h : v ≠ 0#8) : (v - 1#8).toNat = v.toNat - 1 := by
  have hv : v.toNat ≠ 0 := fun e => h (BitVec.eq_of_toNat_eq (by simpa using e))
  have := v.isLt
  simp [BitVec.toNat_sub]
  omega

/-! ### The ALU -/

theorem aluRegisters_mul {a b : Byte} (ha : a.toNat < 8) (hb : b.toNat < 8) :
    s.aluRegisters .mul a b =
      .ok (s.setReg ⟨a.toNat, ha⟩ (aluMul (s.getReg ⟨a.toNat, ha⟩) (s.getReg ⟨b.toNat, hb⟩))) := by
  simp [State.aluRegisters, regIndex_legal ha, regIndex_legal hb, alu, State.writeBack]

theorem aluRegisters_cmp {a b : Byte} (ha : a.toNat < 8) (hb : b.toNat < 8) :
    s.aluRegisters .cmp a b =
      .ok (s.setFlags (compareFlags (s.getReg ⟨a.toNat, ha⟩) (s.getReg ⟨b.toNat, hb⟩))) := by
  simp [State.aluRegisters, regIndex_legal ha, regIndex_legal hb, alu, State.writeBack]

theorem aluRegisters_illegal_first (op : AluOp) {a : Byte} (b : Byte) (ha : 8 ≤ a.toNat) :
    s.aluRegisters op a b = .error (.invalidRegister a) := by
  simp [State.aluRegisters, regIndex_illegal ha]

theorem aluRegisters_illegal_second (op : AluOp) {a b : Byte} (ha : a.toNat < 8) (hb : 8 ≤ b.toNat) :
    s.aluRegisters op a b = .error (.invalidRegister b) := by
  simp [State.aluRegisters, regIndex_legal ha, regIndex_illegal hb]

theorem compareFlags_eq {va vb : Byte} (h : va.toNat = vb.toNat) : compareFlags va vb = 1#3 := by
  simp [compareFlags, h]

theorem compareFlags_gt {va vb : Byte} (h : vb.toNat < va.toNat) : compareFlags va vb = 2#3 := by
  simp [compareFlags, h, Nat.ne_of_gt h]

theorem compareFlags_lt {va vb : Byte} (h : va.toNat < vb.toNat) : compareFlags va vb = 4#3 := by
  simp [compareFlags, Nat.ne_of_lt h, Nat.not_lt.mpr (Nat.le_of_lt h)]

/-! ### Fetch and decode -/

/-- The fetch inside memory reads the three bytes at `pc` (spec/41_execute_loop.md R82). -/
theorem State.fetch_inside (h : s.pc.toNat ≤ 253) :
    s.fetch = .ok (s.mem.read s.pc.toNat, s.mem.read (s.pc.toNat + 1), s.mem.read (s.pc.toNat + 2)) := by
  have h0 : s.pc.toNat < 256 := by omega
  have h1 : s.pc.toNat + 1 < 256 := by omega
  have h2 : s.pc.toNat + 2 < 256 := by omega
  simp [State.fetch, s.memRead_inside h0, s.memRead_inside h1, s.memRead_inside h2]

/-- The fetch that reaches past the end of memory stops at address 256 (R82). -/
theorem State.fetch_outside (h : 254 ≤ s.pc.toNat) (h' : s.pc.toNat ≤ 256) :
    s.fetch = .error (.outOfRange 256) := by
  obtain h0 | h0 | h0 : s.pc.toNat = 254 ∨ s.pc.toNat = 255 ∨ s.pc.toNat = 256 := by omega
  · simp [State.fetch, h0, State.memRead_inside, State.memRead_outside]
  · simp [State.fetch, h0, State.memRead_inside, State.memRead_outside]
  · simp [State.fetch, h0, State.memRead_outside]

/-- The instruction at `pc` is what the decoder reads from the fetched bytes. -/
theorem State.nextInstr_inside (h : s.pc.toNat ≤ 253) {i : Instr}
    (hd : decode (s.mem.read s.pc.toNat) (s.mem.read (s.pc.toNat + 1))
      (s.mem.read (s.pc.toNat + 2)) = .ok i) :
    s.nextInstr = .ok i := by
  simp [State.nextInstr, s.fetch_inside h, hd]

/-- An instruction is only ever fetched from `pc <= 253`. -/
theorem State.nextInstr_ok {s : State} {i : Instr} (h : s.nextInstr = .ok i) :
    s.pc.toNat ≤ 253 ∧ decode (s.mem.read s.pc.toNat) (s.mem.read (s.pc.toNat + 1))
      (s.mem.read (s.pc.toNat + 2)) = .ok i := by
  by_cases hp : s.pc.toNat ≤ 253
  · refine ⟨hp, ?_⟩
    rw [State.nextInstr, s.fetch_inside hp] at h
    dsimp only at h
    split at h <;> simp_all
  · exfalso
    have hne : ∀ v, s.fetch ≠ .ok v := by
      intro v hv
      obtain ⟨_, -, hv⟩ := bind_eq_ok hv
      obtain ⟨_, -, hv⟩ := bind_eq_ok hv
      obtain ⟨_, hv, -⟩ := bind_eq_ok hv
      rw [s.memRead_outside (by omega)] at hv
      exact absurd hv (by simp)
    rw [State.nextInstr] at h
    split at h
    · exact absurd h (by simp)
    · exact hne _ (by assumption)

/-! ### The step -/

theorem step_nextInstr_ok {s : State} {i : Instr} (hr : s.run = .running) (h : s.nextInstr = .ok i) :
    step s = exec i s := by
  simp [step, hr, h]

theorem step_nextInstr_error {s : State} {c : Cause} (hr : s.run = .running)
    (h : s.nextInstr = .error c) : step s = .next { s with run := .stopped c } := by
  simp [step, hr, h, raise]

/-- Everything a step can do: it takes place only in RUNNING, and it runs the fetched instruction or
stops (spec/41_execute_loop.md R80, R90). -/
theorem step_cases {s t : State} (h : step s = .next t) :
    s.run = .running ∧
      ((∃ i, s.nextInstr = .ok i ∧ exec i s = .next t) ∨
        ∃ c, s.nextInstr = .error c ∧ t = { s with run := .stopped c }) := by
  unfold step at h
  split at h
  · rename_i hr
    refine ⟨hr, ?_⟩
    split at h
    · exact .inl ⟨_, by assumption, h⟩
    · exact .inr ⟨_, by assumption, by simpa [raise] using h.symm⟩
  · exact absurd h (by simp)
  · exact absurd h (by simp)

end Sys2Proof.Machine
end

