-- ==== Sys2Proof/Laws/Exec.lean ====
section
/-! SUPPORT. One inversion lemma per meaning: when it answers a next state, either it stopped, for a named
reason and with nothing else changed, or its guards held and the next state is this one. -/

namespace Sys2Proof.Machine

/-- The state a stop leaves (spec/60_exceptions.md R130). -/
abbrev stoppedAt (s : State) (c : Cause) : State := { s with run := .stopped c }

variable {s t : State} {a b : Byte}

theorem raise_eq_next {c : Cause} (h : raise c s = .next t) : t = stoppedAt s c := by
  simpa [raise] using h.symm

theorem next_eq_next {u : State} (h : (Host.Outcome.next u : Result) = .next t) : t = u := by
  simpa using h.symm

theorem execLdi_cases (h : execLdi a b s = .next t) :
    (8 ≤ a.toNat ∧ t = stoppedAt s (.invalidRegister a)) ∨
      ∃ ha : a.toNat < 8, t = (s.setReg ⟨a.toNat, ha⟩ b).advance 2 := by
  unfold execLdi at h
  rcases regIndex_cases a with ⟨ha, e⟩ | ⟨ha, e⟩ <;> simp only [e, bind_ok, bind_error] at h
  · exact .inr ⟨ha, next_eq_next h⟩
  · exact .inl ⟨ha, raise_eq_next h⟩

theorem execPrn_cases (h : execPrn a s = .next t) :
    (8 ≤ a.toNat ∧ t = stoppedAt s (.invalidRegister a)) ∨
      ∃ ha : a.toNat < 8, t = (s.emit (s.getReg ⟨a.toNat, ha⟩)).advance 1 := by
  unfold execPrn at h
  rcases regIndex_cases a with ⟨ha, e⟩ | ⟨ha, e⟩ <;> simp only [e, bind_ok, bind_error] at h
  · exact .inr ⟨ha, next_eq_next h⟩
  · exact .inl ⟨ha, raise_eq_next h⟩

theorem execMul_cases (h : execMul a b s = .next t) :
    (8 ≤ a.toNat ∧ t = stoppedAt s (.invalidRegister a)) ∨
      (8 ≤ b.toNat ∧ t = stoppedAt s (.invalidRegister b)) ∨
      ∃ (ha : a.toNat < 8) (hb : b.toNat < 8), t = (s.setReg ⟨a.toNat, ha⟩
        (aluMul (s.getReg ⟨a.toNat, ha⟩) (s.getReg ⟨b.toNat, hb⟩))).advance 2 := by
  unfold execMul at h
  rcases regIndex_cases a with ⟨ha, -⟩ | ⟨ha, -⟩
  · rcases regIndex_cases b with ⟨hb, -⟩ | ⟨hb, -⟩
    · rw [aluRegisters_mul s ha hb] at h
      exact .inr (.inr ⟨ha, hb, next_eq_next h⟩)
    · rw [aluRegisters_illegal_second s _ ha hb] at h
      exact .inr (.inl ⟨hb, raise_eq_next h⟩)
  · rw [aluRegisters_illegal_first s _ b ha] at h
    exact .inl ⟨ha, raise_eq_next h⟩

theorem execCmp_cases (h : execCmp a b s = .next t) :
    (8 ≤ a.toNat ∧ t = stoppedAt s (.invalidRegister a)) ∨
      (8 ≤ b.toNat ∧ t = stoppedAt s (.invalidRegister b)) ∨
      ∃ (ha : a.toNat < 8) (hb : b.toNat < 8), t = (s.setFlags
        (compareFlags (s.getReg ⟨a.toNat, ha⟩) (s.getReg ⟨b.toNat, hb⟩))).advance 2 := by
  unfold execCmp at h
  rcases regIndex_cases a with ⟨ha, -⟩ | ⟨ha, -⟩
  · rcases regIndex_cases b with ⟨hb, -⟩ | ⟨hb, -⟩
    · rw [aluRegisters_cmp s ha hb] at h
      exact .inr (.inr ⟨ha, hb, next_eq_next h⟩)
    · rw [aluRegisters_illegal_second s _ ha hb] at h
      exact .inr (.inl ⟨hb, raise_eq_next h⟩)
  · rw [aluRegisters_illegal_first s _ b ha] at h
    exact .inl ⟨ha, raise_eq_next h⟩

theorem execPush_cases (h : execPush a s = .next t) :
    (8 ≤ a.toNat ∧ t = stoppedAt s (.invalidRegister a)) ∨
      (s.x[7] = 0#8 ∧ t = stoppedAt s .stackOverflow) ∨
      ∃ ha : a.toNat < 8, s.x[7] ≠ 0#8 ∧
        t = ((s.setSp (s.x[7] - 1#8)).setMem (s.mem.write (s.x[7].toNat - 1)
          ((s.setSp (s.x[7] - 1#8)).getReg ⟨a.toNat, ha⟩))).advance 1 := by
  unfold execPush at h
  rcases regIndex_cases a with ⟨ha, e⟩ | ⟨ha, e⟩ <;> simp only [e, bind_ok, bind_error] at h
  · by_cases hs : s.x[7] = 0#8
    · rw [s.decrementSp_zero hs] at h
      exact .inr (.inl ⟨hs, raise_eq_next h⟩)
    · rw [s.decrementSp_ok hs] at h
      simp only [bind_ok, State.memWrite_byte, State.sp_setSp, toNat_sub_one hs, State.setSp_mem] at h
      exact .inr (.inr ⟨ha, hs, next_eq_next h⟩)
  · exact .inl ⟨ha, raise_eq_next h⟩

theorem execPop_cases (h : execPop a s = .next t) :
    (8 ≤ a.toNat ∧ t = stoppedAt s (.invalidRegister a)) ∨
      (s.spInit.toNat ≤ s.x[7].toNat ∧ t = stoppedAt s .stackUnderflow) ∨
      ∃ ha : a.toNat < 8, s.x[7].toNat < s.spInit.toNat ∧
        t = (s.setReg ⟨a.toNat, ha⟩ (s.mem.read s.x[7].toNat)).incrementSp.advance 1 := by
  unfold execPop at h
  rcases regIndex_cases a with ⟨ha, e⟩ | ⟨ha, e⟩ <;> simp only [e, bind_ok, bind_error] at h
  · by_cases hs : s.x[7].toNat < s.spInit.toNat
    · rw [s.topOfStack_ok hs] at h
      exact .inr (.inr ⟨ha, hs, next_eq_next h⟩)
    · rw [s.topOfStack_empty (Nat.not_lt.mp hs)] at h
      exact .inr (.inl ⟨Nat.not_lt.mp hs, raise_eq_next h⟩)
  · exact .inl ⟨ha, raise_eq_next h⟩

theorem execJmp_cases (h : execJmp a s = .next t) :
    (8 ≤ a.toNat ∧ t = stoppedAt s (.invalidRegister a)) ∨
      ∃ ha : a.toNat < 8, t = s.jumpTo (s.getReg ⟨a.toNat, ha⟩) := by
  unfold execJmp at h
  rcases regIndex_cases a with ⟨ha, e⟩ | ⟨ha, e⟩ <;> simp only [e, bind_ok, bind_error] at h
  · exact .inr ⟨ha, next_eq_next h⟩
  · exact .inl ⟨ha, raise_eq_next h⟩

theorem execJeq_cases (h : execJeq a s = .next t) :
    (s.flagE = false ∧ t = s.advance 1) ∨
      (s.flagE = true ∧ 8 ≤ a.toNat ∧ t = stoppedAt s (.invalidRegister a)) ∨
      (s.flagE = true ∧ ∃ ha : a.toNat < 8, t = s.jumpTo (s.getReg ⟨a.toNat, ha⟩)) := by
  unfold execJeq at h
  by_cases he : s.flagE = true
  · rw [if_pos he] at h
    rcases regIndex_cases a with ⟨ha, e⟩ | ⟨ha, e⟩ <;> simp only [e, bind_ok, bind_error] at h
    · exact .inr (.inr ⟨he, ha, next_eq_next h⟩)
    · exact .inr (.inl ⟨he, ha, raise_eq_next h⟩)
  · rw [if_neg he] at h
    exact .inl ⟨Bool.not_eq_true _ ▸ he, next_eq_next h⟩

theorem execCall_cases (h : execCall a s = .next t) :
    (8 ≤ a.toNat ∧ t = stoppedAt s (.invalidRegister a)) ∨
      (s.x[7] = 0#8 ∧ t = stoppedAt s .stackOverflow) ∨
      ∃ ha : a.toNat < 8, s.x[7] ≠ 0#8 ∧
        t = ((s.setSp (s.x[7] - 1#8)).setMem (s.mem.write (s.x[7].toNat - 1) s.returnAddress)).jumpTo
          ((s.setSp (s.x[7] - 1#8)).getReg ⟨a.toNat, ha⟩) := by
  unfold execCall at h
  rcases regIndex_cases a with ⟨ha, e⟩ | ⟨ha, e⟩ <;> simp only [e, bind_ok, bind_error] at h
  · by_cases hs : s.x[7] = 0#8
    · rw [s.decrementSp_zero hs] at h
      exact .inr (.inl ⟨hs, raise_eq_next h⟩)
    · rw [s.decrementSp_ok hs] at h
      simp only [bind_ok, State.memWrite_byte, State.sp_setSp, toNat_sub_one hs, State.setSp_mem] at h
      exact .inr (.inr ⟨ha, hs, next_eq_next h⟩)
  · exact .inl ⟨ha, raise_eq_next h⟩

theorem execRet_cases (h : execRet s = .next t) :
    (s.spInit.toNat ≤ s.x[7].toNat ∧ t = stoppedAt s .stackUnderflow) ∨
      (s.x[7].toNat < s.spInit.toNat ∧ t = (s.jumpTo (s.mem.read s.x[7].toNat)).incrementSp) := by
  unfold execRet at h
  by_cases hs : s.x[7].toNat < s.spInit.toNat
  · rw [s.topOfStack_ok hs] at h
    exact .inr ⟨hs, next_eq_next h⟩
  · rw [s.topOfStack_empty (Nat.not_lt.mp hs)] at h
    exact .inl ⟨Nat.not_lt.mp hs, raise_eq_next h⟩

theorem execHlt_cases (h : execHlt s = .next t) : t = s.halt := next_eq_next h

end Sys2Proof.Machine
end

