-- ==== Sys2Proof/Laws/PerInstr.lean ====
section
/-! SUPPORT. Statements about every instruction as syntax, one lemma per constructor. -/

namespace Sys2Proof.Laws.EncodedShape

/-- An instruction's encoding is its length in bytes, 1 to 3 (spec/30_encoding.md R50, R58), and bits 7:6
of its opcode byte are its operand count (the observation of R54). -/
def Statement (i : Instr) : Prop :=
  (encode i).length = i.length ∧ 1 ≤ i.length ∧ i.length ≤ 3 ∧
    ((encode i).headD 0#8).toNat / 64 = i.operandCount

theorem ldi (a b : Byte) : Statement (.ldi a b) := by simp [Statement, encode, Instr.length, Instr.operandCount]

theorem prn (a : Byte) : Statement (.prn a) := by simp [Statement, encode, Instr.length, Instr.operandCount]

theorem mul (a b : Byte) : Statement (.mul a b) := by simp [Statement, encode, Instr.length, Instr.operandCount]

theorem push (a : Byte) : Statement (.push a) := by simp [Statement, encode, Instr.length, Instr.operandCount]

theorem pop (a : Byte) : Statement (.pop a) := by simp [Statement, encode, Instr.length, Instr.operandCount]

theorem call (a : Byte) : Statement (.call a) := by simp [Statement, encode, Instr.length, Instr.operandCount]

theorem ret : Statement .ret := by simp [Statement, encode, Instr.length, Instr.operandCount]

theorem cmp (a b : Byte) : Statement (.cmp a b) := by simp [Statement, encode, Instr.length, Instr.operandCount]

theorem jmp (a : Byte) : Statement (.jmp a) := by simp [Statement, encode, Instr.length, Instr.operandCount]

theorem jeq (a : Byte) : Statement (.jeq a) := by simp [Statement, encode, Instr.length, Instr.operandCount]

theorem hlt : Statement .hlt := by simp [Statement, encode, Instr.length, Instr.operandCount]

end Sys2Proof.Laws.EncodedShape
end

