-- ==== Sys2Proof/WellFormed.lean ====
section
/-! DEFINITION. Well-formedness of an instruction: every register operand is legal, 0 to 7
(spec/30_encoding.md R51). It is a check for whoever writes programs. The machine does not use it:
the other operand bytes decode too, and stop the core when the register is accessed (R56), so no
statement about decoding or executing is limited to well-formed instructions (log 10). -/

namespace Sys2Proof

/-- An operand byte names a register exactly when it is below 8 (R51, spec/10_state.md R12). -/
def legalRegister (i : Byte) : Bool := i.toNat < Config.nreg

/-- Every operand that is a register index is legal. The literal of LDI may be any byte (R56). -/
def Instr.wellFormed : Instr → Bool
  | .ldi a _ => legalRegister a
  | .prn a => legalRegister a
  | .mul a b => legalRegister a && legalRegister b
  | .push a => legalRegister a
  | .pop a => legalRegister a
  | .call a => legalRegister a
  | .ret => true
  | .cmp a b => legalRegister a && legalRegister b
  | .jmp a => legalRegister a
  | .jeq a => legalRegister a
  | .hlt => true

end Sys2Proof
end

