-- ==== Sys2Proof/Tests/Slice0.lean ====
section
/-! SUPPORT. The model's own tests. Expected results are the vectors V<n>, scenarios and examples of
spec/95_test_vectors.md and spec/30_encoding.md, not the model's answers. Then one witness for every
obligation that has hypotheses: a state and operands that meet them all, at boundary values. -/

namespace Sys2Proof.Tests

open Sys2Proof.Machine

/-! ### Helpers -/

/-- The reset state with `pc` and the bytes there. -/
def codeAt (pc : PcWord) (bytes : List Byte) : State :=
  { State.reset with pc := pc, mem := Memory.place [] pc.toNat bytes }

/-- The next state, if there is one. -/
def next? (r : Result) : Option State :=
  match r with
  | .next t => some t
  | .fault _ => none
  | .refused _ => none

/-- Change one register. -/
def reg (s : State) (i : Fin 8) (v : Byte) : State := s.setReg i v

/-! ### Well-formedness refuses an ill-formed term, one for each check -/

theorem test_wf_accepts_r7 : (Instr.ldi 7 255).wellFormed = true := by decide
theorem test_wf_refuses_ldi : (Instr.ldi 8 0).wellFormed = false := by decide
theorem test_wf_refuses_prn : (Instr.prn 255).wellFormed = false := by decide
theorem test_wf_refuses_mul_a : (Instr.mul 8 0).wellFormed = false := by decide
theorem test_wf_refuses_mul_b : (Instr.mul 0 9).wellFormed = false := by decide
theorem test_wf_refuses_push : (Instr.push 9).wellFormed = false := by decide
theorem test_wf_refuses_pop : (Instr.pop 8).wellFormed = false := by decide
theorem test_wf_refuses_call : (Instr.call 16).wellFormed = false := by decide
theorem test_wf_refuses_cmp_a : (Instr.cmp 8 0).wellFormed = false := by decide
theorem test_wf_refuses_cmp_b : (Instr.cmp 0 8).wellFormed = false := by decide
theorem test_wf_refuses_jmp : (Instr.jmp 16).wellFormed = false := by decide
theorem test_wf_refuses_jeq : (Instr.jeq 200).wellFormed = false := by decide

/-! ### Decoding: each word written out from the binary column of spec/30_encoding.md R52 -/

theorem test_decode_ldi : decode 0b10000010#8 0b00000011#8 0b11111111#8 = .ok (.ldi 3 255) := by decide
theorem test_decode_prn : decode 0b01000111#8 0b00000101#8 0b00000000#8 = .ok (.prn 5) := by decide
theorem test_decode_mul : decode 0b10100010#8 0b00000010#8 0b00000111#8 = .ok (.mul 2 7) := by decide
theorem test_decode_push : decode 0b01000101#8 0b00000110#8 0b00000000#8 = .ok (.push 6) := by decide
theorem test_decode_pop : decode 0b01000110#8 0b00000001#8 0b11111111#8 = .ok (.pop 1) := by decide
theorem test_decode_call : decode 0b01010000#8 0b00000100#8 0b00000000#8 = .ok (.call 4) := by decide
theorem test_decode_ret : decode 0b00010001#8 0b11111111#8 0b11111111#8 = .ok .ret := by decide
theorem test_decode_cmp : decode 0b10100111#8 0b00000000#8 0b00000001#8 = .ok (.cmp 0 1) := by decide
theorem test_decode_jmp : decode 0b01010100#8 0b00010000#8 0b00000000#8 = .ok (.jmp 16) := by decide
theorem test_decode_jeq : decode 0b01010101#8 0b11001000#8 0b00000000#8 = .ok (.jeq 200) := by decide
theorem test_decode_hlt : decode 0b00000001#8 0b11111111#8 0b11111111#8 = .ok .hlt := by decide

/-- V65: there is no NOP. -/
theorem test_decode_zero_unknown : decode 0x00#8 0#8 0#8 = .error (.unknownOpcode 0x00#8) := by decide
/-- V66: there is no ADD instruction. -/
theorem test_decode_add_unknown : decode 0xA0#8 0#8 1#8 = .error (.unknownOpcode 0xA0#8) := by decide
set_option maxRecDepth 4000 in
/-- Spec/30_encoding.md R55: 245 of the 256 byte values are unknown. -/
theorem test_decode_unknown_count :
    ((List.range 256).filter fun n => decodeTableWord 24 n = none).length = 245 := by decide
/-- Spec/30_encoding.md section 6, MUL R0,R1 at address 6, as the table numbers its bits. -/
theorem test_decode_table_word : decodeTableWord 24 0x0100A2 = some (.mul 0 1) := by decide
/-- The bits above `nbits` are 0. -/
theorem test_decode_table_word_short : decodeTableWord 8 0xFFFF82 = some (.ldi 0 0) := by decide

/-- The notation of the source's first scenario (spec/30_encoding.md R59). -/
theorem test_listing : (Instr.ldi 0 8).listing = "LDI R0,8" ∧ (Instr.mul 0 1).listing = "MUL R0,R1" ∧
    (Instr.prn 0).listing = "PRN R0" ∧ Instr.hlt.listing = "HLT" := by decide

/-! ### One step each -/

/-- V3: the stack pointer is loaded. -/
theorem test_ldi_r7 : (next? (step (codeAt 0 [0x82, 0x07, 0x80]))).map (fun t => (t.x[7], t.pc)) =
    some (128, 3) := by decide
/-- V63: `pc` becomes 256. -/
theorem test_ldi_at_253 : (next? (step (codeAt 253 [0x82, 0x01, 0x63]))).map (fun t => (t.x[1], t.pc)) =
    some (99, 256) := by decide
/-- V5. -/
theorem test_prn_appends : (next? (step (reg (codeAt 3 [0x47, 0x00]) 0 255))).map
    (fun t => (t.out, t.pc, t.printed)) = some ([255], 5, ["255"]) := by decide
/-- V7. -/
theorem test_prn_invalid : (next? (step (codeAt 0 [0x47, 0xFF]))).map (fun t => (t.run, t.out)) =
    some (.stopped (.invalidRegister 255), []) := by decide
/-- V19: wrap, and the stack pointer as a general register. -/
theorem test_mul_r7 : (next? (step (reg (codeAt 0 [0xA2, 0x07, 0x01]) 1 2))).map (fun t => t.x[7]) =
    some 232 := by decide
/-- V12: source and destination the same. -/
theorem test_mul_square : (next? (step (reg (codeAt 0 [0xA2, 0x00, 0x00]) 0 255))).map (fun t => t.x[0]) =
    some 1 := by decide
/-- V23: unsigned. -/
theorem test_cmp_unsigned : (next? (step (reg (reg (codeAt 0 [0xA7, 0x00, 0x01]) 0 128) 1 127))).map
    (fun t => (t.fl, t.pc)) = some (2, 3) := by decide
/-- V26: contents, not operand bytes, are compared. -/
theorem test_cmp_contents : (next? (step (reg (reg (codeAt 0 [0xA7, 0x01, 0x00]) 0 5) 1 5))).map
    (fun t => t.fl) = some 1 := by decide
/-- V33: PUSH R7 stores the decremented pointer. -/
theorem test_push_r7 : (next? (step (codeAt 0 [0x45, 0x07]))).map (fun t => (t.x[7], t.mem.read 243)) =
    some (243, 243) := by decide
/-- V32. -/
theorem test_push_overflow : (next? (step (reg (codeAt 0 [0x45, 0x00]) 7 0))).map
    (fun t => (t.run, t.x[7])) = some (.stopped .stackOverflow, 0) := by decide
/-- V37: POP R7 wraps. -/
theorem test_pop_r7_wraps : (next? (step { reg (codeAt 0 [0x46, 0x07]) 7 243 with
    mem := [(0, 0x46), (1, 0x07), (243, 255)] })).map (fun t => (t.x[7], t.pc)) = some (0, 2) := by decide
/-- V36. -/
theorem test_pop_above_spInit : (next? (step (reg (codeAt 0 [0x46, 0x01]) 7 254))).map (fun t => t.run) =
    some (.stopped .stackUnderflow) := by decide
/-- V54: CALL R7 goes to where the return address was stored. -/
theorem test_call_r7 : (next? (step (codeAt 0 [0x50, 0x07]))).map
    (fun t => (t.x[7], t.mem.read 243, t.pc)) = some (243, 2, 243) := by decide
/-- V55: a CALL at 252 pushes 254. -/
theorem test_call_at_252 : (next? (step (reg (codeAt 252 [0x50, 0x00]) 0 30))).map
    (fun t => (t.mem.read 243, t.pc)) = some (254, 30) := by decide
/-- V51 with SP_INIT = 244. -/
theorem test_ret : (next? (step { reg (codeAt 18 [0x11]) 7 243 with
    mem := [(18, 0x11), (243, 8)] })).map (fun t => (t.pc, t.x[7])) = some (8, 244) := by decide
/-- V52. -/
theorem test_ret_empty : (next? (step (codeAt 0 [0x11]))).map (fun t => t.run) =
    some (.stopped .stackUnderflow) := by decide
/-- V41. -/
theorem test_jmp : (next? (step (reg (codeAt 9 [0x54, 0x02]) 2 18))).map (fun t => t.pc) = some 18 := by decide
/-- V46: the operand is a register number. -/
theorem test_jmp_invalid : (next? (step (codeAt 0 [0x54, 0x10]))).map (fun t => (t.run, t.pc)) =
    some (.stopped (.invalidRegister 16), 0) := by decide
/-- V47: not taken, the operand is not checked. -/
theorem test_jeq_not_taken : (next? (step (codeAt 0 [0x55, 0xC8]))).map (fun t => (t.run, t.pc)) =
    some (.running, 2) := by decide
/-- V42. -/
theorem test_jeq_taken : (next? (step { reg (codeAt 12 [0x55, 0x02]) 2 18 with fl := 1 })).map
    (fun t => (t.pc, t.fl)) = some (18, 1) := by decide
/-- V60: the last address an instruction can stand at. -/
theorem test_hlt_at_253 : (next? (step (codeAt 253 [0x01]))).map (fun t => (t.run, t.pc)) =
    some (.halted, 253) := by decide
/-- V61: an HLT at 254 does not halt. -/
theorem test_fetch_at_254 : (next? (step (codeAt 254 [0x01]))).map (fun t => (t.run, t.pc)) =
    some (.stopped (.outOfRange 256), 254) := by decide
/-- V67. -/
theorem test_unknown_opcode : (next? (step (codeAt 0 [0x83]))).map (fun t => (t.run, t.pc)) =
    some (.stopped (.unknownOpcode 131), 0) := by decide

/-- Spec/40_alu.md R71: ADD is an operation of the ALU. -/
theorem test_alu_add : alu .add 200 100 = .ok { res := some 44, flags := none } := by decide
/-- Spec/95_test_vectors.md section 2.2, the ALU alone: a selector outside the three (R74). -/
theorem test_alu_unsupported : alu (.other 0) 1 2 = .error (.unsupportedALUOp (.other 0)) := by decide

/-- Spec/70_reset_and_hazards.md R163: the image at 0, zeros above; 45 00 is two bytes of which one is
listed. -/
theorem test_load : (next? (State.load 7 [0x45, 0x00])).map (fun t => (t.mem, t.x[7], t.spInit, t.pc)) =
    some ([(0, 0x45)], 7, 7, 0) := by decide

/-- Every row's word, placed for the first step after reset, runs: none faults and none is refused. -/
theorem test_every_row_runs_from_reset :
    ([0x000082, 0x0047, 0x0000A2, 0x0045, 0x0046, 0x0050, 0x11, 0x0000A7, 0x0054, 0x0055, 0x01].all
      fun w => (next? (step (State.reset.withFetchWord 24 w))).isSome) = true := by decide

/-! ### Witnesses: the hypotheses of each obligation are met together -/

theorem witness_DecodeOfEncode :
    encode .ret ++ [0xFF#8, 0x00#8] = [0x11#8, 0xFF#8, 0x00#8] ∧
    encode (.pop 255) ++ [0x01#8] = [0x46#8, 255#8, 0x01#8] ∧
    encode (.ldi 7 255) ++ [] = [0x82#8, 7#8, 255#8] := by decide

theorem witness_EncodeOfDecode : decode 0x82#8 7#8 255#8 = .ok (.ldi 7 255) ∧
    decode 0x01#8 9#8 9#8 = .ok .hlt := by decide

theorem witness_StepRunsDecodedInstruction :
    let s := codeAt 253 [0x01]
    s.run = .running ∧ s.pc.toNat ≤ 253 ∧
    decode (s.mem.read s.pc.toNat) (s.mem.read (s.pc.toNat + 1)) (s.mem.read (s.pc.toNat + 2)) =
      .ok .hlt := by decide

theorem witness_StepRunsEncodedInstruction :
    let s := codeAt 253 [0x82, 0x01, 0x63]
    s.run = .running ∧ s.pc.toNat ≤ 253 ∧
    ∀ k (h : k < (encode (.ldi 1 0x63)).length),
      s.mem.read (s.pc.toNat + k) = (encode (.ldi 1 0x63))[k] := by decide

theorem witness_FetchPastMemoryStops :
    ∀ pc ∈ [254#9, 255#9, 256#9], (codeAt pc []).run = .running ∧ 254 ≤ (codeAt pc []).pc.toNat ∧
      (codeAt pc []).pc.toNat ≤ 256 := by decide

theorem witness_UnknownOpcodeStops :
    let s := codeAt 253 [0x83]
    s.run = .running ∧ s.pc.toNat ≤ 253 ∧ s.mem.read s.pc.toNat = 0x83#8 ∧
    0x83#8 ∉ [0x82#8, 0x47#8, 0xA2#8, 0x45#8, 0x46#8, 0x50#8, 0x11#8, 0xA7#8, 0x54#8, 0x55#8, 0x01#8] := by
  decide

/-- Both sides of the equivalence occur. -/
theorem witness_StepIsTotalExactlyInRunning :
    (State.reset.run = .running ∧ ∃ t, step State.reset = .next t) ∧
    State.reset.halt.run ≠ .running := ⟨⟨rfl, _, rfl⟩, by decide⟩

theorem witness_EndedStatesFaultByName : State.reset.halt.run = .halted ∧
    ({ State.reset with run := .stopped .stackOverflow } : State).run = .stopped .stackOverflow := by decide

/-- The operand clauses of LDI, PRN, MUL, CMP and JMP, at their boundary. -/
theorem witness_RegisterOperands : (7#8).toNat < 8 ∧ 8 ≤ (8#8).toNat ∧
    ∃ t, exec (.prn 7) State.reset = .next t := ⟨by decide, by decide, _, rfl⟩

theorem witness_PushStoresBelowStackPointer :
    ((7#8).toNat < 8 ∧ State.reset.x[7] ≠ 0#8) ∧ (reg State.reset 7 1).x[7] ≠ 0#8 ∧
    8 ≤ (8#8).toNat ∧ (reg State.reset 7 0).x[7] = 0#8 := by decide

theorem witness_PopLoadsFromStackPointer :
    ((7#8).toNat < 8 ∧ (reg State.reset 7 243).x[7].toNat < State.reset.spInit.toNat) ∧
    8 ≤ (8#8).toNat ∧ State.reset.spInit.toNat ≤ State.reset.x[7].toNat := by decide

theorem witness_JeqTransfersWhenEqual :
    ({ State.reset with fl := 1 } : State).fl.getLsbD 0 = true ∧ State.reset.fl.getLsbD 0 = false ∧
    ({ State.reset with fl := 4 } : State).fl.getLsbD 0 = false := by decide

theorem witness_CallPushesReturnAddress :
    ((7#8).toNat < 8 ∧ (codeAt 253 []).x[7] ≠ 0#8 ∧ (codeAt 253 []).pc.toNat ≤ 253) ∧
    8 ≤ (8#8).toNat ∧ (reg State.reset 7 0).x[7] = 0#8 := by decide

theorem witness_RetPopsProgramCounter :
    (reg State.reset 7 243).x[7].toNat < State.reset.spInit.toNat ∧
    State.reset.spInit.toNat ≤ State.reset.x[7].toNat := by decide

/-- A running state at 253 whose instruction completes, one whose instruction stops, and one that halts. -/
theorem witness_ProgramCounterAfterStep :
    (codeAt 253 []).run = .running ∧ (codeAt 253 []).pc.toNat ≤ 253 ∧
    (∃ t, exec (.ldi 0 1) (codeAt 253 []) = .next t ∧ t.run = .running ∧ t.pc.toNat = 256) ∧
    (∃ t, exec (.ldi 8 1) (codeAt 253 []) = .next t ∧ t.run ≠ .running) ∧
    (∃ t, exec .hlt (codeAt 253 []) = .next t ∧ t.run ≠ .running) :=
  ⟨rfl, by decide, ⟨_, rfl, rfl, by decide⟩, ⟨_, rfl, by decide⟩, ⟨_, rfl, by decide⟩⟩

theorem witness_StopsArePrecise :
    ∃ t, step (reg (codeAt 0 [0x45, 0x00]) 7 0) = .next t ∧ t.run = .stopped .stackOverflow :=
  ⟨_, rfl, rfl⟩

/-- One step for each cause that a step can stop with. -/
theorem witness_StopCauseTable :
    (∃ t, step (codeAt 256 []) = .next t ∧ t.run = .stopped (.outOfRange 256)) ∧
    (∃ t, step (codeAt 253 [0xA0]) = .next t ∧ t.run = .stopped (.unknownOpcode 0xA0)) ∧
    (∃ t, step (codeAt 0 [0xA2, 0, 9]) = .next t ∧ t.run = .stopped (.invalidRegister 9)) ∧
    (∃ t, step (reg (codeAt 0 [0x50, 0]) 7 0) = .next t ∧ t.run = .stopped .stackOverflow) ∧
    (∃ t, step (codeAt 0 [0x11]) = .next t ∧ t.run = .stopped .stackUnderflow) :=
  ⟨⟨_, rfl, rfl⟩, ⟨_, rfl, rfl⟩, ⟨_, rfl, rfl⟩, ⟨_, rfl, rfl⟩, ⟨_, rfl, rfl⟩⟩

/-- The window at both ends of its range, with an unknown byte, with a PUSH of a bad register at `x[7] = 0`,
and with no opcode to read. -/
theorem witness_StopPriority :
    (∀ s ∈ [codeAt 255 [0x00], reg (codeAt 254 [0x45, 0x09]) 7 0, codeAt 256 []],
      s.run = .running ∧ 254 ≤ s.pc.toNat ∧ s.pc.toNat ≤ 256) ∧
    8 ≤ (8#8).toNat ∧ 8 ≤ (9#8).toNat ∧ (reg State.reset 7 0).x[7] = 0#8 ∧
    State.reset.spInit.toNat ≤ State.reset.x[7].toNat := by decide

/-- A completed instruction of each clause of the frames. -/
theorem witness_Frames :
    (∃ t, exec (.ldi 0 9) State.reset = .next t ∧ t.x[0] = 9 ∧ (1 : Nat) ≠ (0#8).toNat) ∧
    (∃ t, exec (.pop 0) (reg State.reset 7 243) = .next t ∧ t.x[7] = 244) ∧
    (∃ t, exec (.push 0) State.reset = .next t ∧ t.x[7] = 243) ∧
    (∃ t, exec (.cmp 0 1) State.reset = .next t ∧ t.fl = 1) ∧
    (∃ t, exec (.prn 0) State.reset = .next t ∧ t.out = [0]) :=
  ⟨⟨_, rfl, rfl, by decide⟩, ⟨_, rfl, rfl⟩, ⟨_, rfl, rfl⟩, ⟨_, rfl, rfl⟩, ⟨_, rfl, rfl⟩⟩

theorem witness_MemoryFrameOfStores :
    Memory.wf State.reset.mem ∧ State.reset.x[7] ≠ 0#8 ∧ (242 : Nat) ≠ State.reset.x[7].toNat - 1 ∧
    (∃ t, exec (.push 7) State.reset = .next t) ∧ (∃ t, exec (.call 0) State.reset = .next t) ∧
    (∃ t, exec (.push 0) (reg State.reset 7 0) = .next t) :=
  ⟨by decide, by decide, by decide, ⟨_, rfl⟩, ⟨_, rfl⟩, ⟨_, rfl⟩⟩

theorem witness_OnlyCmpWritesFlags :
    (∃ t, exec (.cmp 0 7) State.reset = .next t ∧ t.fl = 4) ∧
    (∃ t, exec (.mul 0 8) State.reset = .next t ∧ t.run = .stopped (.invalidRegister 8)) ∧
    State.reset.run = .running := ⟨⟨_, rfl, rfl⟩, ⟨_, rfl, rfl⟩, rfl⟩

theorem witness_StepKeepsInv :
    (codeAt 253 [0x82, 0x01, 0x63]).Inv ∧ ∃ t, step (codeAt 253 [0x82, 0x01, 0x63]) = .next t ∧
      t.pc.toNat = 256 := ⟨by decide, _, rfl, by decide⟩

theorem witness_LoadGivesInv : ∃ t, State.load 0 [0x45, 0x00, 0x01] = .next t := ⟨_, rfl⟩

theorem witness_ExactlyOneFlagAfterCmp :
    (1#8 ∈ [1#8, 2#8, 4#8] ∧ ∃ t, step { codeAt 0 [0x55, 0x00] with fl := 1 } = .next t) ∧
    ∃ t, exec (.cmp 7 0) State.reset = .next t ∧ t.fl = 2 := ⟨⟨by decide, _, rfl⟩, _, rfl, rfl⟩

theorem witness_PopNeverPassesSpInit :
    (∃ t, exec (.pop 6) (reg State.reset 7 243) = .next t ∧ t.run = .running ∧ (6#8).toNat ≠ 7) ∧
    (∃ t, exec .ret (reg State.reset 7 0) = .next t ∧ t.run = .running) :=
  ⟨⟨_, rfl, rfl, by decide⟩, _, rfl, rfl⟩

theorem witness_MemReadAfterMemWrite : Memory.wf (codeAt 0 [1, 2, 3]).mem ∧ (255 : Nat) ≤ 255 ∧
    (255 : Nat) < 256 := by decide

theorem witness_StoreSeenByNextFetch :
    let s := reg (codeAt 251 [0x45, 0x07]) 7 254
    Memory.wf s.mem ∧ (7#8).toNat < 8 ∧ s.x[7] ≠ 0#8 ∧ s.pc.toNat ≤ 251 ∧
    s.x[7].toNat - 1 = s.pc.toNat + 2 ∧ ∃ t, exec (.push 7) s = .next t :=
  ⟨by decide, by decide, by decide, by decide, by decide, _, rfl⟩

theorem witness_ResetState : (List.replicate 256 1#8).length ≤ 256 ∧
    256 < (List.replicate 257 1#8).length :=
  ⟨Nat.le_of_eq List.length_replicate, Nat.lt_of_lt_of_eq (by decide) List.length_replicate.symm⟩

theorem witness_PlacedWordIsRunNext :
    let s := codeAt 253 [1, 2, 3]
    Memory.wf s.mem ∧ s.run = .running ∧ s.pc.toNat ≤ 253 ∧
    decodeTableWord 16 0x0147 = some (.prn 1) := by decide

theorem witness_PushPopRoundTrip :
    let s := reg State.reset 7 1
    Memory.wf s.mem ∧ (0#8).toNat ≠ 7 ∧ (6#8).toNat ≠ 7 ∧ 1 ≤ s.x[7].toNat ∧
    s.x[7].toNat ≤ s.spInit.toNat := by decide

theorem witness_StackIsLastInFirstOut :
    let s := reg State.reset 7 2
    Memory.wf s.mem ∧ (0#8).toNat < 7 ∧ (1#8).toNat < 7 ∧ (5#8).toNat < 7 ∧ (6#8).toNat < 7 ∧
    5#8 ≠ 6#8 ∧ 2 ≤ s.x[7].toNat ∧ s.x[7].toNat ≤ s.spInit.toNat := by decide

theorem witness_CallThenRetReturns :
    let s := codeAt 253 []
    Memory.wf s.mem ∧ (7#8).toNat < 8 ∧ s.pc.toNat ≤ 253 ∧ 1 ≤ s.x[7].toNat ∧
    s.x[7].toNat ≤ s.spInit.toNat ∧ ∃ t u : State, exec (.call 7) s = .next t ∧ u.x[7] = t.x[7] ∧
      u.spInit = t.spInit ∧ u.mem.read u.x[7].toNat = t.mem.read t.x[7].toNat :=
  ⟨by decide, by decide, by decide, by decide, by decide, _, _, rfl, rfl, rfl, rfl⟩

theorem witness_OutputIsUnread : ∃ t, step (codeAt 0 [0x47, 0x07]) = .next t ∧ t.out = [244] :=
  ⟨_, rfl, rfl⟩

theorem witness_OnlyFlagEIsRead :
    ((6#8).getLsbD 0 = State.reset.fl.getLsbD 0) ∧
    (∃ t, step (codeAt 0 [0x55, 0x00]) = .next t) ∧ (∃ t, step (codeAt 0 [0xA7, 0, 1]) = .next t) :=
  ⟨by decide, ⟨_, rfl⟩, ⟨_, rfl⟩⟩

theorem witness_SpInitOnlyBoundsPops :
    (∀ a, Instr.push 0 ≠ .pop a) ∧ Instr.push 0 ≠ .ret ∧ ∃ t, exec (.push 0) State.reset = .next t :=
  ⟨fun _ => by simp, by decide, _, rfl⟩

theorem witness_EndedRunStays : (runFor 1 (codeAt 0 [0x01])).ended = true ∧
    (runFor 0 State.reset.halt).ended = true := by decide

theorem witness_RunKeepsInvAndOutput : (codeAt 0 [0x47, 0x07, 0x01]).Inv := by decide

end Sys2Proof.Tests
end

/-! ### What an instruction does, as one relation

`Completes i s t` and `Stops i s c` are the two columns of the instruction table: the state a completed
instruction leaves, and the cause it stops with otherwise, each with its guards. `exec_eq_next_iff` says that
they are exactly what `exec` does, so a frame, an invariant or a two-state comparison is a case analysis on
`Completes` and needs no meaning unfolded. -/

namespace Sys2Proof.Machine

/-- The completed instructions (spec/42_load_print_arith.md, spec/43_stack.md, spec/44_control_flow.md). -/
inductive Completes : Instr → State → State → Prop
  | ldi {a b : Byte} {s : State} (ha : a.toNat < 8) :
      Completes (.ldi a b) s ((s.setReg ⟨a.toNat, ha⟩ b).advance 2)
  | prn {a : Byte} {s : State} (ha : a.toNat < 8) :
      Completes (.prn a) s ((s.emit (s.getReg ⟨a.toNat, ha⟩)).advance 1)
  | mul {a b : Byte} {s : State} (ha : a.toNat < 8) (hb : b.toNat < 8) :
      Completes (.mul a b) s ((s.setReg ⟨a.toNat, ha⟩
        (aluMul (s.getReg ⟨a.toNat, ha⟩) (s.getReg ⟨b.toNat, hb⟩))).advance 2)
  | push {a : Byte} {s : State} (ha : a.toNat < 8) (hsp : s.x[7] ≠ 0#8) :
      Completes (.push a) s (((s.setSp (s.x[7] - 1#8)).setMem (s.mem.write (s.x[7].toNat - 1)
        ((s.setSp (s.x[7] - 1#8)).getReg ⟨a.toNat, ha⟩))).advance 1)
  | pop {a : Byte} {s : State} (ha : a.toNat < 8) (hsp : s.x[7].toNat < s.spInit.toNat) :
      Completes (.pop a) s
        ((s.setReg ⟨a.toNat, ha⟩ (s.mem.read s.x[7].toNat)).incrementSp.advance 1)
  | call {a : Byte} {s : State} (ha : a.toNat < 8) (hsp : s.x[7] ≠ 0#8) :
      Completes (.call a) s
        (((s.setSp (s.x[7] - 1#8)).setMem (s.mem.write (s.x[7].toNat - 1) s.returnAddress)).jumpTo
          ((s.setSp (s.x[7] - 1#8)).getReg ⟨a.toNat, ha⟩))
  | ret {s : State} (hsp : s.x[7].toNat < s.spInit.toNat) :
      Completes .ret s (s.jumpTo (s.mem.read s.x[7].toNat)).incrementSp
  | cmp {a b : Byte} {s : State} (ha : a.toNat < 8) (hb : b.toNat < 8) :
      Completes (.cmp a b) s ((s.setFlags
        (compareFlags (s.getReg ⟨a.toNat, ha⟩) (s.getReg ⟨b.toNat, hb⟩))).advance 2)
  | jmp {a : Byte} {s : State} (ha : a.toNat < 8) :
      Completes (.jmp a) s (s.jumpTo (s.getReg ⟨a.toNat, ha⟩))
  | jeqTaken {a : Byte} {s : State} (he : s.flagE = true) (ha : a.toNat < 8) :
      Completes (.jeq a) s (s.jumpTo (s.getReg ⟨a.toNat, ha⟩))
  | jeqNotTaken {a : Byte} {s : State} (he : s.flagE = false) :
      Completes (.jeq a) s (s.advance 1)
  | hlt {s : State} : Completes .hlt s s.halt

/-- When an instruction stops, and with which cause, in the order of spec/60_exceptions.md R138. -/
def Stops (i : Instr) (s : State) (c : Cause) : Prop :=
  match i with
  | .ldi a _ | .prn a | .jmp a => 8 ≤ a.toNat ∧ c = .invalidRegister a
  | .mul a b | .cmp a b =>
    (8 ≤ a.toNat ∧ c = .invalidRegister a) ∨
      (a.toNat < 8 ∧ 8 ≤ b.toNat ∧ c = .invalidRegister b)
  | .push a | .call a =>
    (8 ≤ a.toNat ∧ c = .invalidRegister a) ∨ (a.toNat < 8 ∧ s.x[7] = 0#8 ∧ c = .stackOverflow)
  | .pop a =>
    (8 ≤ a.toNat ∧ c = .invalidRegister a) ∨
      (a.toNat < 8 ∧ s.spInit.toNat ≤ s.x[7].toNat ∧ c = .stackUnderflow)
  | .ret => s.spInit.toNat ≤ s.x[7].toNat ∧ c = .stackUnderflow
  | .jeq a => s.flagE = true ∧ 8 ≤ a.toNat ∧ c = .invalidRegister a
  | .hlt => False

variable {i : Instr} {s s' t : State} {c : Cause}

theorem exec_of_completes (h : Completes i s t) : exec i s = .next t := by
  cases h with
  | ldi ha => simp [exec, execLdi, regIndex_legal ha, literal]
  | prn ha => simp [exec, execPrn, regIndex_legal ha]
  | mul ha hb => simp [exec, execMul, aluRegisters_mul s ha hb]
  | push ha hsp =>
    simp [exec, execPush, regIndex_legal ha, s.decrementSp_ok hsp, State.memWrite_byte,
      toNat_sub_one hsp]
  | pop ha hsp => simp [exec, execPop, regIndex_legal ha, s.topOfStack_ok hsp]
  | call ha hsp =>
    simp [exec, execCall, regIndex_legal ha, s.decrementSp_ok hsp, State.memWrite_byte,
      toNat_sub_one hsp]
  | ret hsp => simp [exec, execRet, s.topOfStack_ok hsp]
  | cmp ha hb => simp [exec, execCmp, aluRegisters_cmp s ha hb]
  | jmp ha => simp [exec, execJmp, regIndex_legal ha]
  | jeqTaken he ha => simp [exec, execJeq, he, regIndex_legal ha]
  | jeqNotTaken he => simp [exec, execJeq, he]
  | hlt => rfl

theorem exec_of_stops (h : Stops i s c) : exec i s = .next (stoppedAt s c) := by
  cases i with
  | ldi a | prn a | jmp a =>
    obtain ⟨ha, rfl⟩ := h
    simp [exec, execLdi, execPrn, execJmp, regIndex_illegal ha, raise]
  | mul a b | cmp a b =>
    obtain ⟨ha, rfl⟩ | ⟨ha, hb, rfl⟩ := h
    · simp [exec, execMul, execCmp, aluRegisters_illegal_first s _ b ha, raise]
    · simp [exec, execMul, execCmp, aluRegisters_illegal_second s _ ha hb, raise]
  | push a | call a =>
    obtain ⟨ha, rfl⟩ | ⟨ha, hsp, rfl⟩ := h
    · simp [exec, execPush, execCall, regIndex_illegal ha, raise]
    · simp [exec, execPush, execCall, regIndex_legal ha, s.decrementSp_zero hsp, raise]
  | pop a =>
    obtain ⟨ha, rfl⟩ | ⟨ha, hsp, rfl⟩ := h
    · simp [exec, execPop, regIndex_illegal ha, raise]
    · simp [exec, execPop, regIndex_legal ha, s.topOfStack_empty hsp, raise]
  | ret =>
    obtain ⟨hsp, rfl⟩ := h
    simp [exec, execRet, s.topOfStack_empty hsp, raise]
  | jeq a =>
    obtain ⟨he, ha, rfl⟩ := h
    simp [exec, execJeq, he, regIndex_illegal ha, raise]
  | hlt => exact h.elim

/-- The guards leave no case out. -/
theorem stops_or_completes (i : Instr) (s : State) :
    (∃ c, Stops i s c) ∨ ∃ t, Completes i s t := by
  cases i with
  | ldi a b => exact (Nat.lt_or_ge a.toNat 8).symm.imp (⟨_, ·, rfl⟩) (⟨_, .ldi ·⟩)
  | prn a => exact (Nat.lt_or_ge a.toNat 8).symm.imp (⟨_, ·, rfl⟩) (⟨_, .prn ·⟩)
  | jmp a => exact (Nat.lt_or_ge a.toNat 8).symm.imp (⟨_, ·, rfl⟩) (⟨_, .jmp ·⟩)
  | mul a b =>
    rcases Nat.lt_or_ge a.toNat 8 with ha | ha
    · exact (Nat.lt_or_ge b.toNat 8).symm.imp (⟨_, .inr ⟨ha, ·, rfl⟩⟩) (⟨_, .mul ha ·⟩)
    · exact .inl ⟨_, .inl ⟨ha, rfl⟩⟩
  | cmp a b =>
    rcases Nat.lt_or_ge a.toNat 8 with ha | ha
    · exact (Nat.lt_or_ge b.toNat 8).symm.imp (⟨_, .inr ⟨ha, ·, rfl⟩⟩) (⟨_, .cmp ha ·⟩)
    · exact .inl ⟨_, .inl ⟨ha, rfl⟩⟩
  | push a =>
    rcases Nat.lt_or_ge a.toNat 8 with ha | ha
    · exact (eq_or_ne s.x[7] 0#8).imp (⟨_, .inr ⟨ha, ·, rfl⟩⟩) (⟨_, .push ha ·⟩)
    · exact .inl ⟨_, .inl ⟨ha, rfl⟩⟩
  | call a =>
    rcases Nat.lt_or_ge a.toNat 8 with ha | ha
    · exact (eq_or_ne s.x[7] 0#8).imp (⟨_, .inr ⟨ha, ·, rfl⟩⟩) (⟨_, .call ha ·⟩)
    · exact .inl ⟨_, .inl ⟨ha, rfl⟩⟩
  | pop a =>
    rcases Nat.lt_or_ge a.toNat 8 with ha | ha
    · exact (Nat.lt_or_ge s.x[7].toNat s.spInit.toNat).symm.imp
        (⟨_, .inr ⟨ha, ·, rfl⟩⟩) (⟨_, .pop ha ·⟩)
    · exact .inl ⟨_, .inl ⟨ha, rfl⟩⟩
  | ret =>
    exact (Nat.lt_or_ge s.x[7].toNat s.spInit.toNat).symm.imp (⟨_, ·, rfl⟩) (⟨_, .ret ·⟩)
  | jeq a =>
    rcases Bool.eq_false_or_eq_true s.flagE with he | he
    · exact (Nat.lt_or_ge a.toNat 8).symm.imp (⟨_, he, ·, rfl⟩) (⟨_, .jeqTaken he ·⟩)
    · exact .inr ⟨_, .jeqNotTaken he⟩
  | hlt => exact .inr ⟨_, .hlt⟩

/-- Everything an instruction can do (spec/41_execute_loop.md R90). -/
theorem exec_eq_next_iff :
    exec i s = .next t ↔ (∃ c, Stops i s c ∧ t = stoppedAt s c) ∨ Completes i s t := by
  constructor
  · intro h
    obtain ⟨c, hc⟩ | ⟨u, hu⟩ := stops_or_completes i s
    · exact .inl ⟨c, hc, next_eq_next ((exec_of_stops hc).symm.trans h)⟩
    · exact .inr (next_eq_next ((exec_of_completes hu).symm.trans h) ▸ hu)
  · rintro (⟨c, hc, rfl⟩ | hd)
    · exact exec_of_stops hc
    · exact exec_of_completes hd

theorem exec_next_of_completes {u : State} (hd : Completes i s u) (h : exec i s = .next t) : t = u :=
  next_eq_next ((exec_of_completes hd).symm.trans h)

/-- A stop depends on the registers, the flag E and SP_INIT only. -/
theorem Stops.congr (h : Stops i s c) (hx : s'.x = s.x) (he : s'.flagE = s.flagE)
    (hsp : s'.spInit = s.spInit) : Stops i s' c := by
  simpa only [Stops, hx, he, hsp] using h

/-- The fetched instruction depends on the program counter and the memory only
(spec/41_execute_loop.md R81 to R83). -/
theorem State.nextInstr_congr (hpc : s'.pc = s.pc) (hmem : s'.mem = s.mem) :
    s'.nextInstr = s.nextInstr := by
  simp only [State.nextInstr, State.fetch, State.memRead, hpc, hmem]

/-! ### What a completed instruction leaves unchanged, field by field (spec/10_state.md R23) -/

theorem Completes.fl_eq (h : Completes i s t) (hi : ∀ a b, i ≠ .cmp a b) : t.fl = s.fl := by
  cases h with
  | cmp => exact absurd rfl (hi _ _)
  | _ => rfl

theorem Completes.out_eq (h : Completes i s t) (hi : ∀ a, i ≠ .prn a) : t.out = s.out := by
  cases h with
  | prn => exact absurd rfl (hi _)
  | _ => rfl

theorem Completes.run_eq (h : Completes i s t) (hi : i ≠ .hlt) : t.run = s.run := by
  cases h with
  | hlt => exact absurd rfl hi
  | _ => rfl

theorem Completes.spInit_eq (h : Completes i s t) : t.spInit = s.spInit := by
  cases h <;> rfl

/-- Settles O26: a stop changes no register, and a completed instruction sets its destination and, where the
stack moves, register 7. -/
theorem registerFrame : Obligations.RegisterFrame := by
  intro i s t r hr h
  obtain ⟨c, -, rfl⟩ | hd := exec_eq_next_iff.mp h
  · cases i <;> simp
  · cases hd with
    | ldi ha | mul ha =>
      intro hra
      exact Vector.getElem_set_ne ha hr hra.symm
    | push | call | ret =>
      intro hr7
      exact Vector.getElem_set_ne spIndex.isLt hr hr7.symm
    | pop ha =>
      intro hra hr7
      exact (Vector.getElem_set_ne spIndex.isLt hr hr7.symm).trans (Vector.getElem_set_ne ha hr hra.symm)
    | prn | cmp | jmp | jeqTaken | jeqNotTaken | hlt => rfl

/-- Settles O29: a stop keeps FL, so does every completed instruction but CMP, and the state CMP leaves does
not mention the old FL. -/
theorem onlyCmpWritesFlags : Obligations.OnlyCmpWritesFlags := by
  intro i s t h
  refine ⟨fun hi => ?_, fun c hr ht => ?_, ?_⟩
  · obtain ⟨c, -, rfl⟩ | hd := exec_eq_next_iff.mp h
    · rfl
    · exact hd.fl_eq hi
  · obtain ⟨c, -, rfl⟩ | hd := exec_eq_next_iff.mp h
    · rfl
    · refine hd.fl_eq ?_
      rintro a b rfl
      have hrun := hd.run_eq (by simp)
      simp [hr, ht] at hrun
  · rintro a b rfl ha hb f
    rw [exec_next_of_completes (.cmp ha hb) h]
    exact exec_of_completes (s := { s with fl := f }) (.cmp ha hb)

/-- Settles O30, field by field of a stop and of a completed instruction. -/
theorem outputAndRunFrame : Obligations.OutputAndRunFrame := by
  intro i s t h
  obtain ⟨c, -, rfl⟩ | hd := exec_eq_next_iff.mp h
  · exact ⟨fun _ => rfl, fun _ => .inr ⟨c, rfl⟩, rfl⟩
  · exact ⟨hd.out_eq, fun hi => .inl (hd.run_eq hi), hd.spInit_eq⟩

/-! ### The flags CMP writes -/

/-- A comparison sets exactly one flag (spec/40_alu.md R73). -/
theorem compareFlags_setWidth_mem (va vb : Byte) :
    (compareFlags va vb).setWidth 8 ∈ [1#8, 2#8, 4#8] := by
  rcases Nat.lt_trichotomy va.toNat vb.toNat with h | h | h
  · simp [compareFlags_lt h]
  · simp [compareFlags_eq h]
  · simp [compareFlags_gt h]

/-- FL after any instruction: as before, or written whole with one flag set. -/
theorem exec_fl (h : exec i s = .next t) : t.fl = s.fl ∨ t.fl ∈ [1#8, 2#8, 4#8] := by
  obtain ⟨c, -, rfl⟩ | hd := exec_eq_next_iff.mp h
  · exact .inl rfl
  · cases hd with
    | cmp => exact .inr (compareFlags_setWidth_mem _ _)
    | _ => exact .inl rfl

theorem step_fl (h : step s = .next t) : t.fl = s.fl ∨ t.fl ∈ [1#8, 2#8, 4#8] := by
  obtain ⟨-, ⟨i, -, he⟩ | ⟨c, -, rfl⟩⟩ := step_cases h
  · exact exec_fl he
  · exact .inl rfl

/-- Settles O34: a step keeps FL or writes it by a comparison, which sets exactly one flag. -/
theorem exactlyOneFlagAfterCmp : Obligations.ExactlyOneFlagAfterCmp := by
  constructor
  · intro s t hs h
    obtain hfl | hfl := step_fl h
    · rwa [hfl]
    · exact hfl
  · intro s t a b ha hb h
    rw [exec_next_of_completes (.cmp ha hb) h]
    exact compareFlags_setWidth_mem _ _

/-! ### Reset -/

/-- Settles O38: the image placed at address 0 of the empty memory is read back, and above it the unlisted
zeros are. -/
theorem resetState : Obligations.ResetState := by
  intro spInit image hlen
  have hread := Memory.read_place Memory.wf_nil 0 image (by omega)
  refine ⟨_, if_pos hlen, rfl, rfl, rfl, rfl, rfl, rfl, fun k hk => ?_, fun k hk => ?_⟩
  · have hin : 0 ≤ k ∧ k < 0 + image.length := by omega
    rw [hread k, dif_pos hin]; rfl
  · have hout : ¬ (0 ≤ k ∧ k < 0 + image.length) := by omega
    rw [hread k, dif_neg hout]; rfl

/-! ### What no instruction can read -/

/-- Every completed instruction but PRN does the same whatever the output holds. -/
theorem Completes.withOut (o : List Byte) (h : Completes i s t) (hi : ∀ a, i ≠ .prn a) :
    Completes i { s with out := o } { t with out := o } := by
  cases h with
  | prn => exact absurd rfl (hi _)
  | _ => constructor <;> assumption

/-- Every completed instruction but CMP does the same whatever flags other than E are set. -/
theorem Completes.withFlags {f : Byte} (hf : f.getLsbD 0 = s.fl.getLsbD 0) (h : Completes i s t)
    (hi : ∀ a b, i ≠ .cmp a b) : Completes i { s with fl := f } { t with fl := f } := by
  have hE : State.flagE { s with fl := f } = s.flagE := hf
  cases h with
  | cmp => exact absurd rfl (hi _ _)
  | jeqTaken he ha => exact .jeqTaken (hE.trans he) ha
  | jeqNotTaken he => exact .jeqNotTaken (hE.trans he)
  | _ => constructor <;> assumption

theorem exec_withOut (o : List Byte) (h : exec i s = .next t) :
    ∃ more, t.out = s.out ++ more ∧
      exec i { s with out := o } = .next { t with out := o ++ more } := by
  obtain ⟨c, hc, rfl⟩ | hd := exec_eq_next_iff.mp h
  · refine ⟨[], (List.append_nil _).symm, ?_⟩
    rw [List.append_nil]
    exact exec_of_stops (hc.congr rfl rfl rfl)
  · by_cases hi : ∀ a, i ≠ .prn a
    · refine ⟨[], by simp [hd.out_eq hi], ?_⟩
      rw [List.append_nil]
      exact exec_of_completes (hd.withOut o hi)
    · push Not at hi
      obtain ⟨a, rfl⟩ := hi
      cases hd with
      | prn ha => exact ⟨_, rfl, exec_of_completes (s := { s with out := o }) (.prn ha)⟩

theorem exec_withFlags {f : Byte} (hf : f.getLsbD 0 = s.fl.getLsbD 0) (h : exec i s = .next t) :
    (t.fl = s.fl ∧ exec i { s with fl := f } = .next { t with fl := f }) ∨
      exec i { s with fl := f } = .next t := by
  obtain ⟨c, hc, rfl⟩ | hd := exec_eq_next_iff.mp h
  · exact .inl ⟨rfl, exec_of_stops (hc.congr rfl hf rfl)⟩
  · by_cases hi : ∀ a b, i ≠ .cmp a b
    · exact .inl ⟨hd.fl_eq hi, exec_of_completes (hd.withFlags hf hi)⟩
    · push Not at hi
      obtain ⟨a, b, rfl⟩ := hi
      cases hd with
      | cmp ha hb => exact .inr (exec_of_completes (s := { s with fl := f }) (.cmp ha hb))

/-- Settles O48: the fetch does not look at the output, and the instruction only appends to it. -/
theorem outputIsUnread : Obligations.OutputIsUnread := by
  intro s t o h
  have hfetch : State.nextInstr { s with out := o } = s.nextInstr := State.nextInstr_congr rfl rfl
  obtain ⟨hr, ⟨i, hn, he⟩ | ⟨c, hn, rfl⟩⟩ := step_cases h
  · rw [step_nextInstr_ok (s := { s with out := o }) hr (hfetch.trans hn)]
    exact exec_withOut o he
  · refine ⟨[], (List.append_nil _).symm, ?_⟩
    rw [List.append_nil]
    exact step_nextInstr_error hr (hfetch.trans hn)

/-- Settles O49: the fetch does not look at FL, JEQ looks at bit E only, and CMP writes FL whole. -/
theorem onlyFlagEIsRead : Obligations.OnlyFlagEIsRead := by
  intro s t f hf h
  have hfetch : State.nextInstr { s with fl := f } = s.nextInstr := State.nextInstr_congr rfl rfl
  obtain ⟨hr, ⟨i, hn, he⟩ | ⟨c, hn, rfl⟩⟩ := step_cases h
  · rw [step_nextInstr_ok (s := { s with fl := f }) hr (hfetch.trans hn)]
    exact exec_withFlags hf he
  · exact .inl ⟨rfl, step_nextInstr_error hr (hfetch.trans hn)⟩

/-! ### Runs -/

/-- Advancing past an instruction fetched from `pc <= 253` stays within 256 (spec/41_execute_loop.md R84). -/
theorem State.toNat_advance_pc_le {n : Nat} (hpc : s.pc.toNat ≤ 253) (hn : n ≤ 2) :
    (s.advance n).pc.toNat ≤ 256 := by
  rw [State.advance_pc, BitVec.toNat_add, BitVec.toNat_ofNat]
  omega

/-- A control transfer loads a byte (spec/10_state.md R16). -/
theorem State.toNat_jumpTo_pc_le (s : State) (v : Byte) : (s.jumpTo v).pc.toNat ≤ 256 := by
  rw [State.jumpTo_pc, BitVec.toNat_setWidth]
  omega

theorem Completes.pc_le (h : Completes i s t) (hpc : s.pc.toNat ≤ 253) : t.pc.toNat ≤ 256 := by
  cases h with
  | ldi | prn | mul | push | pop | cmp | jeqNotTaken =>
    exact State.toNat_advance_pc_le hpc (by omega)
  | call | ret | jmp | jeqTaken => exact State.toNat_jumpTo_pc_le s _
  | hlt => exact Nat.le_trans hpc (by omega)

theorem Completes.wf_mem (h : Completes i s t) (hm : Memory.wf s.mem) : Memory.wf t.mem := by
  have hsp : s.x[7].toNat - 1 < 256 := by omega
  cases h with
  | push | call => exact Memory.wf_write hm hsp _
  | _ => exact hm

theorem State.flagsLegal_of_mem (h : s.fl ∈ [1#8, 2#8, 4#8]) : s.flagsLegal :=
  .inr (by simpa using h)

/-- Every step keeps the machine's invariant. -/
theorem step_inv (hs : s.Inv) (h : step s = .next t) : t.Inv := by
  obtain ⟨hpc, hfl, hmem⟩ := hs
  have hfl' : t.flagsLegal := by
    obtain hkeep | hset := step_fl h
    · rwa [State.flagsLegal, hkeep]
    · exact State.flagsLegal_of_mem hset
  obtain ⟨-, ⟨i, hn, he⟩ | ⟨c, -, rfl⟩⟩ := step_cases h
  · obtain ⟨c, -, rfl⟩ | hd := exec_eq_next_iff.mp he
    · exact ⟨hpc, hfl', hmem⟩
    · exact ⟨hd.pc_le (State.nextInstr_ok hn).1, hfl', hd.wf_mem hmem⟩
  · exact ⟨hpc, hfl', hmem⟩

/-- Every step's output begins with the output before it (spec/10_state.md R19). -/
theorem step_out_prefix (h : step s = .next t) : s.out <+: t.out := by
  obtain ⟨more, hout, -⟩ := outputIsUnread s t [] h
  exact ⟨more, hout.symm⟩

theorem step_spInit (h : step s = .next t) : t.spInit = s.spInit := by
  obtain ⟨-, ⟨i, -, he⟩ | ⟨c, -, rfl⟩⟩ := step_cases h
  · obtain ⟨-, -, hsp⟩ := outputAndRunFrame i s t he
    exact hsp
  · rfl

/-- What every step keeps, every run keeps. -/
theorem runFor_keeps {P : State → Prop} (hstep : ∀ {u v : State}, P u → step u = .next v → P v)
    (k : Nat) (hs : P s) : P (runFor k s) := by
  induction k generalizing s with
  | zero => exact hs
  | succ k ih =>
    unfold runFor
    split
    · exact ih (hstep hs ‹_›)
    · exact hs
    · exact hs

/-- Settles O52: each of the three facts is kept by every step, so by every run. -/
theorem runKeepsInvAndOutput : Obligations.RunKeepsInvAndOutput := by
  intro s k hs
  have hout : s.out <+: (runFor k s).out :=
    runFor_keeps (P := fun u => s.out <+: u.out)
      (fun hu h => hu.trans (step_out_prefix h)) k (List.prefix_refl _)
  obtain ⟨more, hmore⟩ := hout
  have hsp : (runFor k s).spInit = s.spInit :=
    runFor_keeps (P := fun u => u.spInit = s.spInit) (fun hu h => (step_spInit h).trans hu) k rfl
  exact ⟨runFor_keeps step_inv k hs, ⟨more, hmore.symm⟩, hsp⟩

end Sys2Proof.Machine

/-! ### Memory accesses -/

namespace Sys2Proof.Machine

variable {i : Instr} {s t : State} {c : Cause}

theorem Completes.mem_eq (h : Completes i s t) (hpush : ∀ a, i ≠ .push a) (hcall : ∀ a, i ≠ .call a) :
    t.mem = s.mem := by
  cases h with
  | push => exact absurd rfl (hpush _)
  | call => exact absurd rfl (hcall _)
  | _ => rfl

/-- Settles O27: a stop leaves memory, and of the completed instructions only PUSH and CALL store. -/
theorem memoryFrameOfNonStores : Obligations.MemoryFrameOfNonStores := by
  intro i s t h hpush hcall
  have hmem : t.mem = s.mem := by
    obtain ⟨c, -, rfl⟩ | hd := exec_eq_next_iff.mp h
    · rfl
    · exact hd.mem_eq hpush hcall
  exact ⟨hmem, fun addr => by rw [hmem]⟩

/-- MemRead depends on what memory reads as only (spec/20_memory.md R31). -/
theorem State.memRead_congr {addr : Nat} (h : t.mem.read addr = s.mem.read addr) :
    t.memRead addr = s.memRead addr := by
  simp only [State.memRead, h]

/-- Settles O36: inside memory the law of a read after a write, above it the two range errors. -/
theorem memReadAfterMemWrite : Obligations.MemReadAfterMemWrite := by
  intro s addr v hw
  constructor
  · intro hin
    have haddr : addr < 256 := by omega
    have hread := Memory.read_write hw addr v
    refine ⟨s.mem.write addr v, Memory.wf_write hw haddr v, s.memWrite_inside v haddr, ?_, ?_⟩
    · rw [State.memRead_inside _ haddr, hread, if_pos rfl]
    · intro other hne
      apply State.memRead_congr
      rw [hread, if_neg hne]
  · intro hout
    exact ⟨s.memWrite_outside v hout, s.memRead_outside hout⟩

/-- Advancing past an instruction fetched from `pc <= 253` does not wrap (spec/41_execute_loop.md R84). -/
theorem State.toNat_advance_pc {n : Nat} (hpc : s.pc.toNat ≤ 253) (hn : n ≤ 2) :
    (s.advance n).pc.toNat = s.pc.toNat + (1 + n) := by
  rw [State.advance_pc, BitVec.toNat_add, BitVec.toNat_ofNat]
  omega

theorem Completes.pc_of_push {a : Byte} (h : Completes (.push a) s t) : t.pc = (s.advance 1).pc := by
  cases h; rfl

/-- The cell PUSH stores holds `x[a]` as PUSH leaves it, PUSH R7 included (spec/43_stack.md R110). -/
theorem Completes.read_of_push {a : Byte} (h : Completes (.push a) s t) (hw : Memory.wf s.mem)
    (ha : a.toNat < 8) : t.mem.read (s.x[7].toNat - 1) = t.x[a.toNat] := by
  cases h
  exact (Memory.read_write hw _ _ _).trans (if_pos rfl)

/-- Settles O37: the cell PUSH stores is the first one the next fetch reads. -/
theorem storeSeenByNextFetch : Obligations.StoreSeenByNextFetch := by
  intro s t a ha hw hsp hpc hnext h
  have hd : Completes (.push a) s t := exec_next_of_completes (.push ha hsp) h ▸ .push ha hsp
  have htpc : t.pc.toNat = s.pc.toNat + 2 := by
    rw [hd.pc_of_push, State.toNat_advance_pc (by omega) (by omega)]
  have hop : t.mem.read t.pc.toNat = t.x[a.toNat] := by
    rw [htpc, ← hnext, hd.read_of_push hw ha]
  exact ⟨_, _, by rw [t.fetch_inside (by omega), hop]⟩

/-! ### Which cause a step stops with -/

/-- The eleven opcode bytes of spec/30_encoding.md R52. -/
def opcodes : List Byte :=
  [0x82#8, 0x47#8, 0xA2#8, 0x45#8, 0x46#8, 0x50#8, 0x11#8, 0xA7#8, 0x54#8, 0x55#8, 0x01#8]

/-- A fetched window begins with the encoding of the instruction it decodes to (spec/30_encoding.md R57). -/
theorem encode_prefix_of_decode {ir a b : Byte} (h : decode ir a b = .ok i) :
    encode i <+: [ir, a, b] := by
  unfold decode at h
  split at h <;> cases h <;> simp [encode]

theorem decode_eq_error_iff {ir a b : Byte} {e : DecodeError} :
    decode ir a b = .error e ↔ ir ∉ opcodes ∧ e = .unknownOpcode ir := by
  unfold decode
  split <;> simp_all [opcodes, eq_comm]

/-- Fetch and decode of an unknown opcode byte inside memory (spec/41_execute_loop.md R86). -/
theorem State.nextInstr_unknown (hpc : s.pc.toNat ≤ 253) (h : s.mem.read s.pc.toNat ∉ opcodes) :
    s.nextInstr = .error (.unknownOpcode (s.mem.read s.pc.toNat)) := by
  simp [State.nextInstr, s.fetch_inside hpc, decode_eq_error_iff.mpr ⟨h, rfl⟩]

theorem State.nextInstr_outside (h : 254 ≤ s.pc.toNat) (h' : s.pc.toNat ≤ 256) :
    s.nextInstr = .error (.outOfRange 256) := by
  simp [State.nextInstr, s.fetch_outside h h']

/-- When a step can stop with each cause, by the registers and the bytes at `pc` (spec/60_exceptions.md R131
to R137). -/
def StopCondition (s : State) : Cause → Prop
  | .outOfRange n => n = 256 ∧ 254 ≤ s.pc.toNat
  | .unknownOpcode byte =>
    s.pc.toNat ≤ 253 ∧ byte = s.mem.read s.pc.toNat ∧ byte ∉ opcodes
  | .invalidRegister r =>
    8 ≤ r.toNat ∧ s.mem.read s.pc.toNat ∉ [0x11#8, 0x01#8] ∧
      (r = s.mem.read (s.pc.toNat + 1) ∨
        (r = s.mem.read (s.pc.toNat + 2) ∧ s.mem.read s.pc.toNat ∈ [0xA2#8, 0xA7#8]))
  | .stackOverflow => s.x[7] = 0#8 ∧ s.mem.read s.pc.toNat ∈ [0x45#8, 0x50#8]
  | .stackUnderflow => s.spInit.toNat ≤ s.x[7].toNat ∧ s.mem.read s.pc.toNat ∈ [0x46#8, 0x11#8]
  | .unsupportedALUOp _ => False

/-- Fetch and decode stop at address 256 or with the unknown opcode byte. -/
theorem State.nextInstr_error_condition (hpc : s.pc.toNat ≤ 256) (h : s.nextInstr = .error c) :
    StopCondition s c := by
  by_cases hin : s.pc.toNat ≤ 253
  · rw [State.nextInstr, s.fetch_inside hin] at h
    dsimp only at h
    split at h
    · cases h
    · rename_i byte hd
      cases h
      obtain ⟨hop, he⟩ := decode_eq_error_iff.mp hd
      cases he
      exact ⟨hin, rfl, hop⟩
  · rw [State.nextInstr_outside (by omega) hpc] at h
    cases h
    exact ⟨rfl, by omega⟩

/-- An instruction stops under its cause's condition, read from the bytes it was decoded from. -/
theorem Stops.condition (hc : Stops i s c)
    (henc : encode i <+:
      [s.mem.read s.pc.toNat, s.mem.read (s.pc.toNat + 1), s.mem.read (s.pc.toNat + 2)]) :
    StopCondition s c := by
  cases i <;> simp only [encode, List.cons_prefix_cons, List.nil_prefix, and_true] at henc
  case ldi | prn | jmp =>
    obtain ⟨ha, rfl⟩ := hc
    simp [StopCondition, ha, ← henc]
  case mul | cmp | push | call | pop =>
    obtain ⟨ha, rfl⟩ | ⟨-, hother, rfl⟩ := hc
    · simp [StopCondition, ha, ← henc]
    · simp [StopCondition, hother, ← henc]
  case ret =>
    obtain ⟨hsp, rfl⟩ := hc
    simp [StopCondition, hsp, ← henc]
  case jeq =>
    obtain ⟨-, ha, rfl⟩ := hc
    simp [StopCondition, ha, ← henc]
  case hlt => exact hc.elim

theorem Completes.run_ne_stopped (h : Completes i s t) (hr : s.run = .running) :
    t.run ≠ .stopped c := by
  cases h with
  | hlt => simp
  | _ => simp [hr]

/-- A stop has one of two sources: the fetch, or the fetched instruction. -/
theorem step_stopped (h : step s = .next t) (ht : t.run = .stopped c) :
    s.nextInstr = .error c ∨ ∃ i, s.nextInstr = .ok i ∧ Stops i s c := by
  obtain ⟨hr, ⟨i, hn, he⟩ | ⟨c', hn, rfl⟩⟩ := step_cases h
  · obtain ⟨c', hc, rfl⟩ | hd := exec_eq_next_iff.mp he
    · cases ht
      exact .inr ⟨i, hn, hc⟩
    · exact absurd ht (hd.run_ne_stopped hr)
  · cases ht
    exact .inl hn

theorem step_stopped_condition (hpc : s.pc.toNat ≤ 256) (h : step s = .next t)
    (ht : t.run = .stopped c) : StopCondition s c := by
  obtain hn | ⟨i, hn, hc⟩ := step_stopped h ht
  · exact State.nextInstr_error_condition hpc hn
  · exact hc.condition (encode_prefix_of_decode (State.nextInstr_ok hn).2)

/-- A failed fetch is what the step stops with. -/
theorem step_run_of_nextInstr_error (h : step s = .next t) (hn : s.nextInstr = .error c) :
    t.run = .stopped c := by
  obtain ⟨hr, -⟩ := step_cases h
  rw [next_eq_next ((step_nextInstr_error hr hn).symm.trans h)]

/-- Settles O24: every stop meets its cause's condition, and the two conditions of the fetch are sufficient. -/
theorem stopCauseTable : Obligations.StopCauseTable := by
  intro s t hpc h
  have hcond {c : Cause} (ht : t.run = .stopped c) : StopCondition s c :=
    step_stopped_condition hpc h ht
  refine ⟨fun n => ⟨hcond, ?_⟩, fun byte => ⟨hcond, ?_⟩, fun r => hcond, hcond, hcond, fun op => hcond⟩
  · rintro ⟨rfl, hout⟩
    exact step_run_of_nextInstr_error h (State.nextInstr_outside hout hpc)
  · rintro ⟨hin, rfl, hop⟩
    exact step_run_of_nextInstr_error h (State.nextInstr_unknown hin hop)

end Sys2Proof.Machine

/-! ### Encoding -/

namespace Sys2Proof.Machine

variable {i : Instr} {s : State}

theorem encode_length (i : Instr) : (encode i).length = i.length := by
  cases i <;> rfl

theorem encode_length_le (i : Instr) : (encode i).length ≤ 3 := by
  cases i <;> simp [encode]

/-- A fetched window that begins with an encoding decodes to its instruction: the opcode selects the row, the
operands are the bytes after it, and what follows them is ignored (spec/30_encoding.md R50, R52, R57). -/
theorem decode_of_encode_prefix {ir a b : Byte} {tail : List Byte}
    (h : encode i <+: ir :: a :: b :: tail) : decode ir a b = .ok i := by
  cases i with
  | ldi | mul | cmp =>
    obtain ⟨rfl, rfl, rfl⟩ := by simpa [encode] using h
    rfl
  | prn | push | pop | call | jmp | jeq =>
    obtain ⟨rfl, rfl⟩ := by simpa [encode] using h
    rfl
  | ret | hlt =>
    obtain rfl := by simpa [encode] using h
    rfl

/-- Settles O1: what begins with an encoding decodes to its instruction. -/
theorem decodeOfEncode : Obligations.DecodeOfEncode :=
  fun _ rest _ _ _ _ h => decode_of_encode_prefix ⟨rest, h⟩

/-- Settles O2: the encoding is a prefix of the window, and its length is the instruction's. -/
theorem encodeOfDecode : Obligations.EncodeOfDecode := by
  intro ir a b i h
  rw [← encode_length]
  exact List.prefix_iff_eq_take.mp (encode_prefix_of_decode h)

/-- Settles O3: one of the eleven opcode bytes selects its row, and every other byte differs from all eleven. -/
theorem decodeByWholeOpcodeByte : Obligations.DecodeByWholeOpcodeByte := by
  intro ir a b
  by_cases hop : ir ∈ opcodes
  · fin_cases hop <;> rfl
  · rw [decode_eq_error_iff.mpr ⟨hop, rfl⟩]
    simp only [opcodes, List.mem_cons, List.not_mem_nil, or_false, not_or] at hop
    simp [hop]

/-- The fetched bytes begin with every encoding that memory holds at `pc` (spec/41_execute_loop.md R81). -/
theorem State.encode_prefix_window
    (h : ∀ k (hk : k < (encode i).length), s.mem.read (s.pc.toNat + k) = (encode i)[k]) :
    encode i <+: [s.mem.read s.pc.toNat, s.mem.read (s.pc.toNat + 1), s.mem.read (s.pc.toNat + 2)] := by
  refine List.prefix_iff_getElem.mpr ⟨encode_length_le i, fun k hk => ?_⟩
  rw [← h k hk]
  have hlen := encode_length_le i
  obtain rfl | rfl | rfl : k = 0 ∨ k = 1 ∨ k = 2 := by omega
  · rfl
  · rfl
  · rfl

/-- Settles O6: the window begins with the encoding, so it decodes to the instruction, which the step runs. -/
theorem stepRunsEncodedInstruction : Obligations.StepRunsEncodedInstruction := by
  intro s i hr hpc h
  have hdecode := decode_of_encode_prefix (State.encode_prefix_window h)
  exact step_nextInstr_ok hr (s.nextInstr_inside hpc hdecode)

/-- Settles O8: decoding fails with the byte, and the step stops with what decoding failed with. -/
theorem unknownOpcodeStops : Obligations.UnknownOpcodeStops := by
  rintro s byte hr hpc rfl hop
  exact step_nextInstr_error hr (State.nextInstr_unknown hpc hop)

end Sys2Proof.Machine

/-! ### The ALU's ports (spec/40_alu.md) -/

namespace Sys2Proof.Machine

/-- The flags port is the order of the bytes as unsigned integers, flag by flag (R73). -/
theorem compareFlags_getLsbD (va vb : Byte) :
    ((compareFlags va vb).getLsbD 0 = true ↔ va.toNat = vb.toNat) ∧
    ((compareFlags va vb).getLsbD 1 = true ↔ va.toNat > vb.toNat) ∧
    ((compareFlags va vb).getLsbD 2 = true ↔ va.toNat < vb.toNat) := by
  rcases Nat.lt_trichotomy va.toNat vb.toNat with h | h | h
  · simp [compareFlags_lt h, h, Nat.ne_of_lt h, Nat.le_of_lt h]
  · simp [compareFlags_eq h, h]
  · simp [compareFlags_gt h, h, Nat.ne_of_gt h, Nat.le_of_lt h]

/-- Settles O43: CMP drives the flags of the comparison and no result. -/
theorem aluCompares : Obligations.AluCompares :=
  fun va vb => ⟨compareFlags va vb, rfl, compareFlags_getLsbD va vb⟩

theorem toNat_aluMul (va vb : Byte) : (aluMul va vb).toNat = va.toNat * vb.toNat % 256 :=
  BitVec.toNat_ofNat _ 8

theorem toNat_aluAdd (va vb : Byte) : (aluAdd va vb).toNat = (va.toNat + vb.toNat) % 256 :=
  BitVec.toNat_ofNat _ 8

/-- Settles O41: MUL drives the result port with the product's low byte and nothing else. -/
theorem aluMultiplies : Obligations.AluMultiplies :=
  fun va vb => ⟨aluMul va vb, rfl, toNat_aluMul va vb⟩

/-- Settles O42: ADD drives the result port with the sum's low byte and nothing else. -/
theorem aluAdds : Obligations.AluAdds :=
  fun va vb => ⟨aluAdd va vb, rfl, toNat_aluAdd va vb⟩

/-- Settles O44: the three operations of the unit answer with their ports, and any other selector with the
error that records it. -/
theorem aluRejectsOtherOperations : Obligations.AluRejectsOtherOperations := by
  intro op va vb c
  cases op with
  | add | mul | cmp => simp [alu]
  | other n => simp [alu, eq_comm]

end Sys2Proof.Machine

/-! ### The execute loop (spec/41_execute_loop.md) -/

namespace Sys2Proof.Machine

variable {i : Instr} {s t : State}

/-- Settles O5: the fetched instruction is what the three bytes decode to, and the step runs it. -/
theorem stepRunsDecodedInstruction : Obligations.StepRunsDecodedInstruction :=
  fun s _ hr hpc hd => step_nextInstr_ok hr (s.nextInstr_inside hpc hd)

/-- An instruction always answers a next state, by stopping or by completing (R90). -/
theorem exists_exec_eq_next (i : Instr) (s : State) : ∃ t, exec i s = .next t := by
  obtain ⟨c, hc⟩ | ⟨t, hd⟩ := stops_or_completes i s
  · exact ⟨_, exec_of_stops hc⟩
  · exact ⟨t, exec_of_completes hd⟩

/-- Settles O9: in RUNNING a failed fetch stops and a fetched instruction answers a next state; no other run
state has a step. -/
theorem stepIsTotalExactlyInRunning : Obligations.StepIsTotalExactlyInRunning := by
  refine fun s => ⟨fun ⟨_, h⟩ => (step_cases h).1, fun hr => ?_⟩
  cases hn : s.nextInstr with
  | ok i =>
    rw [step_nextInstr_ok hr hn]
    exact exists_exec_eq_next i s
  | error c => exact ⟨_, step_nextInstr_error hr hn⟩

/-- A control transfer loads the byte's number (spec/10_state.md R16). -/
theorem State.toNat_jumpTo_pc (s : State) (v : Byte) : (s.jumpTo v).pc.toNat = v.toNat :=
  BitVec.toNat_setWidth_of_le (by omega)

/-- Of the completed instructions only HLT leaves RUNNING, and it keeps `pc` (R84). -/
theorem Completes.pc_eq_of_run_ne_running (h : Completes i s t) (hr : s.run = .running)
    (ht : t.run ≠ .running) : t.pc = s.pc := by
  by_cases hi : i = .hlt
  · subst hi
    cases h; rfl
  · exact absurd ((h.run_eq hi).trans hr) ht

/-- `pc = 256` is held, and the next fetch fails (R82). -/
theorem step_pc_256 (hr : s.run = .running) (hpc : s.pc.toNat = 256) :
    step s = .next (stoppedAt s (.outOfRange 256)) :=
  step_nextInstr_error hr (State.nextInstr_outside (by omega) (by omega))

/-- Settles O22: a stop keeps `pc`, a completed instruction advances it past itself or assigns it a byte, and
neither wraps. -/
theorem programCounterAfterStep : Obligations.ProgramCounterAfterStep := by
  intro i s t hr hpc h
  obtain ⟨c, -, rfl⟩ | hd := exec_eq_next_iff.mp h
  · exact ⟨fun _ => rfl, nofun⟩
  · refine ⟨hd.pc_eq_of_run_ne_running hr, fun hrun => ⟨?_, step_pc_256 hrun⟩⟩
    cases hd with
    | ldi | mul | cmp => exact State.toNat_advance_pc (n := 2) hpc (by omega)
    | prn | push | pop => exact State.toNat_advance_pc (n := 1) hpc (by omega)
    | jeqTaken he ha => exact (if_pos he).mpr ⟨ha, s.toNat_jumpTo_pc _⟩
    | jeqNotTaken he =>
      have hE : ¬ s.fl.getLsbD 0 = true := Bool.eq_false_iff.mp he
      exact (if_neg hE).mpr (State.toNat_advance_pc (n := 1) hpc (by omega))
    | jmp ha | call ha => exact ⟨ha, s.toNat_jumpTo_pc _⟩
    | ret => exact s.toNat_jumpTo_pc _
    | hlt => cases hrun

end Sys2Proof.Machine

/-! ### Load, print and arithmetic (spec/42_load_print_arith.md) -/

namespace Sys2Proof.Machine

/-- Settles O11: LDI completes with the literal in `x[a]`, or stops at the index. -/
theorem ldiLoadsLiteral : Obligations.LdiLoadsLiteral :=
  fun _ _ _ => ⟨rfl, fun ha => exec_of_completes (.ldi ha), fun ha => exec_of_stops ⟨ha, rfl⟩⟩

/-- The environment shows one more numeral for an emitted byte (spec/10_state.md R19). -/
@[simp] theorem State.printed_emit (s : State) (v : Byte) :
    (s.emit v).printed = s.printed ++ [decimalNumeral v] := by
  simp [State.printed]

@[simp] theorem State.printed_advance (s : State) (n : Nat) : (s.advance n).printed = s.printed := rfl

/-- Settles O12: PRN completes by emitting `x[a]`, which the environment shows as its numeral, or stops at the
index. -/
theorem prnEmitsRegister : Obligations.PrnEmitsRegister := by
  intro s a
  refine ⟨rfl, fun ha => exec_of_completes (.prn ha), fun ha => exec_of_stops ⟨ha, rfl⟩, ?_⟩
  intro ha t h
  rw [exec_next_of_completes (.prn ha) h, State.printed_advance, State.printed_emit]
  rfl

/-- The low byte that MUL keeps is the product modulo 256 (spec/40_alu.md R72). -/
theorem aluMul_eq_ofNat_mod (va vb : Byte) :
    aluMul va vb = BitVec.ofNat 8 (va.toNat * vb.toNat % 256) := by
  rw [← toNat_aluMul, BitVec.ofNat_toNat, BitVec.setWidth_eq]

/-- Settles O13: MUL completes with the ALU's product in `x[a]`, or stops at the first illegal index. -/
theorem mulMultiplies : Obligations.MulMultiplies := by
  intro s a b
  refine ⟨rfl, fun ha hb => ?_, fun ha => exec_of_stops (.inl ⟨ha, rfl⟩),
    fun ha hb => exec_of_stops (.inr ⟨ha, hb, rfl⟩)⟩
  rw [← aluMul_eq_ofNat_mod]
  exact exec_of_completes (.mul ha hb)

/-- The byte FL takes from a comparison (spec/10_state.md R14, spec/40_alu.md R73). -/
theorem compareFlags_setWidth (va vb : Byte) :
    (compareFlags va vb).setWidth 8 =
      if va.toNat = vb.toNat then 1#8 else if va.toNat > vb.toNat then 2#8 else 4#8 := by
  unfold compareFlags
  split_ifs <;> rfl

/-- Settles O14: CMP completes with the order of `x[a]` and `x[b]` in FL, or stops at the first illegal index. -/
theorem cmpSetsFlags : Obligations.CmpSetsFlags := by
  intro s a b
  refine ⟨rfl, fun ha hb => ?_, fun ha => exec_of_stops (.inl ⟨ha, rfl⟩),
    fun ha hb => exec_of_stops (.inr ⟨ha, hb, rfl⟩)⟩
  rw [← compareFlags_setWidth]
  exact exec_of_completes (.cmp ha hb)

end Sys2Proof.Machine

/-! ### The stack (spec/43_stack.md) -/

namespace Sys2Proof.Machine

variable {i : Instr} {s t u : State} {a c : Byte}

/-! #### The stack pointer's moves in numbers -/

/-- The increment of a byte is addition modulo 256 (R111). -/
theorem add_one_eq_ofNat_mod (v : Byte) : v + 1#8 = BitVec.ofNat 8 ((v.toNat + 1) % 256) :=
  BitVec.eq_of_toNat_eq (by simp)

/-- The guarded increment never passes the bound, so it never wraps (spec/40_alu.md R76). -/
theorem toNat_add_one_le {v bound : Byte} (h : v.toNat < bound.toNat) :
    (v + 1#8).toNat ≤ bound.toNat := by
  rw [BitVec.toNat_add, BitVec.toNat_ofNat]
  omega

theorem ne_zero_of_toNat_pos {v : Byte} (h : 1 ≤ v.toNat) : v ≠ 0#8 := by
  rintro rfl
  exact absurd h (by decide)

theorem getElem_set_seven {n : Nat} (hn : n < 7) (x : Vector Byte 8) (v : Byte) :
    (x.set 7 v)[n] = x[n] :=
  Vector.getElem_set_ne _ _ (by omega)

/-! #### What a completed PUSH, CALL, POP and RET leave -/

/-- PUSH and CALL store one byte, at the address below the stack pointer (R110,
spec/44_control_flow.md R122). -/
theorem Completes.mem_of_store (h : Completes i s t) (hi : i = .push a ∨ i = .call a) :
    a.toNat < 8 ∧ s.x[7] ≠ 0#8 ∧ ∃ v, t.mem = s.mem.write (s.x[7].toNat - 1) v := by
  obtain rfl | rfl := hi
  · cases h with
    | push ha hsp => exact ⟨ha, hsp, _, rfl⟩
  · cases h with
    | call ha hsp => exact ⟨ha, hsp, _, rfl⟩

theorem Completes.x_of_push (h : Completes (.push a) s t) : t.x = s.x.set 7 (s.x[7] - 1#8) := by
  cases h; rfl

/-- A register other than the stack pointer is stored as it was before the decrement. -/
theorem Completes.read_of_push_of_lt (h : Completes (.push a) s t) (hw : Memory.wf s.mem)
    (ha : a.toNat < 7) : t.mem.read (s.x[7].toNat - 1) = s.x[a.toNat] := by
  rw [h.read_of_push hw (by omega)]
  simp only [h.x_of_push, getElem_set_seven ha]

/-- A destination other than the stack pointer leaves it to the increment as it was. -/
theorem Completes.x_of_pop (h : Completes (.pop c) s t) (hc : c.toNat < 7) :
    t.x = (s.x.set c.toNat (s.mem.read s.x[7].toNat)).set 7 (s.x[7] + 1#8) := by
  cases h with
  | pop hc8 =>
    have hsp : (s.setReg ⟨c.toNat, hc8⟩ (s.mem.read s.x[7].toNat)).sp = s.x[7] :=
      s.getReg_setReg_ne _ (Fin.ne_of_lt hc)
    rw [State.advance_x, State.incrementSp_x, hsp, State.setReg_x]

theorem Completes.sp_of_pop (h : Completes (.pop c) s t) (hc : c.toNat ≠ 7) :
    s.x[7].toNat < s.spInit.toNat ∧ t.x[7] = s.x[7] + 1#8 := by
  have hx := h.x_of_pop
  cases h with
  | pop hc8 hsp =>
    refine ⟨hsp, ?_⟩
    simp only [hx (by omega)]
    exact Vector.getElem_set_self _

theorem Completes.sp_of_ret (h : Completes .ret s t) :
    s.x[7].toNat < s.spInit.toNat ∧ t.x[7] = s.x[7] + 1#8 := by
  cases h with
  | ret hsp => exact ⟨hsp, State.sp_incrementSp _⟩

/-! #### A POP undoes a PUSH -/

/-- Two writes to one cell around a write to another are the later one. -/
theorem set_set_set_of_ne {x : Vector Byte 8} {m n : Nat} (hm : m < 8) (hn : n < 8) (hne : m ≠ n)
    (p v : Byte) : ((x.set m p).set n v).set m x[m] = x.set n v := by
  rw [Vector.set_comm _ _ hne.symm, Vector.set_set, Vector.set_getElem_self]

/-- Where the registers are `x` with the stack pointer decremented, POP gives `x` back with the byte on top of
the stack in its destination. -/
theorem exists_pop_of_decremented {x : Vector Byte 8} (hc : c.toNat < 7)
    (hx : t.x = x.set 7 (x[7] - 1#8)) (hpos : 1 ≤ x[7].toNat) (hle : x[7].toNat ≤ t.spInit.toNat) :
    ∃ u, Completes (.pop c) t u ∧ u.x = x.set c.toNat (t.mem.read (x[7].toNat - 1)) := by
  have hsp : t.x[7] = x[7] - 1#8 := by simp only [hx, Vector.getElem_set_self]
  have hsub : (x[7] - 1#8).toNat = x[7].toNat - 1 := toNat_sub_one (ne_zero_of_toNat_pos hpos)
  have hguard : t.x[7].toNat < t.spInit.toNat := by
    rw [hsp, hsub]
    omega
  obtain ⟨u, hu⟩ : ∃ u, Completes (.pop c) t u := ⟨_, .pop (by omega) hguard⟩
  refine ⟨u, hu, ?_⟩
  rw [hu.x_of_pop hc, hsp, hsub, BitVec.sub_add_cancel, hx]
  exact set_set_set_of_ne (by omega) (by omega) (by omega) _ _

/-- PUSH then POP between registers other than the stack pointer (R112 (a)). -/
theorem exists_push_pop (hw : Memory.wf s.mem) (ha : a.toNat < 7) (hc : c.toNat < 7)
    (hpos : 1 ≤ s.x[7].toNat) (hle : s.x[7].toNat ≤ s.spInit.toNat) :
    ∃ t u, Completes (.push a) s t ∧ Completes (.pop c) t u ∧ u.x = s.x.set c.toNat s.x[a.toNat] := by
  obtain ⟨t, ht⟩ : ∃ t, Completes (.push a) s t := ⟨_, .push (by omega) (ne_zero_of_toNat_pos hpos)⟩
  obtain ⟨u, hu, hux⟩ := exists_pop_of_decremented hc ht.x_of_push hpos (ht.spInit_eq ▸ hle)
  exact ⟨t, u, ht, hu, by rw [hux, ht.read_of_push_of_lt hw ha]⟩

/-! #### The obligations -/

/-- Settles O15: PUSH completes by storing below the stack pointer, or stops at the index, else at 0. -/
theorem pushStoresBelowStackPointer : Obligations.PushStoresBelowStackPointer := by
  intro s a
  refine ⟨rfl, ?_, fun ha => exec_of_stops (.inl ⟨ha, rfl⟩),
    fun ha hsp => exec_of_stops (.inr ⟨ha, hsp, rfl⟩)⟩
  rintro ha hsp y rfl
  exact exec_of_completes (.push ha hsp)

/-- Settles O16: POP completes by loading from the stack pointer, or stops at the index, else at SP_INIT. -/
theorem popLoadsFromStackPointer : Obligations.PopLoadsFromStackPointer := by
  intro s a
  refine ⟨rfl, ?_, fun ha => exec_of_stops (.inl ⟨ha, rfl⟩),
    fun ha hsp => exec_of_stops (.inr ⟨ha, hsp, rfl⟩)⟩
  rintro ha hsp y rfl
  rw [← add_one_eq_ofNat_mod]
  exact exec_of_completes (.pop ha hsp)

/-- Settles O28: a stop leaves memory, and a completed PUSH or CALL writes the cell below the stack pointer. -/
theorem memoryFrameOfStores : Obligations.MemoryFrameOfStores := by
  intro s t a hw h
  obtain ⟨i, hi, he⟩ : ∃ i : Instr, (i = .push a ∨ i = .call a) ∧ exec i s = .next t :=
    h.elim (⟨_, .inl rfl, ·⟩) (⟨_, .inr rfl, ·⟩)
  obtain ⟨c, -, rfl⟩ | hd := exec_eq_next_iff.mp he
  · exact ⟨fun _ _ _ => rfl, fun _ _ => rfl⟩
  · obtain ⟨ha, hsp, v, hmem⟩ := hd.mem_of_store hi
    constructor
    · intro addr _ hne
      rw [hmem, Memory.read_write hw, if_neg hne]
    · rintro (hzero | hbad)
      · exact absurd hzero hsp
      · omega

/-- Settles O35: a running POP or RET completed, so its guard bounds the incremented stack pointer. -/
theorem popNeverPassesSpInit : Obligations.PopNeverPassesSpInit := by
  intro s t a _ ht ha7 h
  obtain ⟨i, hi, he⟩ : ∃ i : Instr, (i = .pop a ∨ i = .ret) ∧ exec i s = .next t :=
    h.elim (⟨_, .inl rfl, ·⟩) (⟨_, .inr rfl, ·⟩)
  obtain ⟨c, -, rfl⟩ | hd := exec_eq_next_iff.mp he
  · cases ht
  · obtain ⟨hguard, hsp⟩ : s.x[7].toNat < s.spInit.toNat ∧ t.x[7] = s.x[7] + 1#8 := by
      obtain rfl | rfl := hi
      · exact hd.sp_of_pop ha7
      · exact hd.sp_of_ret
    rw [hsp, hd.spInit_eq]
    exact toNat_add_one_le hguard

/-- Settles O45: the registers are the round trip's, and POP leaves the cell that PUSH stored. -/
theorem pushPopRoundTrip : Obligations.PushPopRoundTrip := by
  intro s a c ha hc hw ha7 hc7 hpos hle
  have ha : a.toNat < 7 := by omega
  obtain ⟨t, u, ht, hu, hx⟩ := exists_push_pop hw ha (by omega : c.toNat < 7) hpos hle
  refine ⟨t, u, exec_of_completes ht, exec_of_completes hu, ?_, hx, ?_⟩
  · rw [hu.run_eq nofun, ht.run_eq nofun]
  · rw [hu.mem_eq nofun nofun, ht.read_of_push_of_lt hw ha]

/-- Settles O46: the inner PUSH and POP are a round trip that spares the cell of the outer PUSH, so the outer
POP finds there what the outer PUSH stored. -/
theorem stackIsLastInFirstOut : Obligations.StackIsLastInFirstOut := by
  intro s a b c d ha hb hc hd hw _ hpos hle
  have hsp : s.x[7] ≠ 0#8 := ne_zero_of_toNat_pos (by omega)
  obtain ⟨t, ht⟩ : ∃ t, Completes (.push a) s t := ⟨_, .push (by omega) hsp⟩
  have htx := ht.x_of_push
  have ht7 : t.x[7].toNat = s.x[7].toNat - 1 := by
    simp only [htx, Vector.getElem_set_self, toNat_sub_one hsp]
  have htb : t.x[b.toNat] = s.x[b.toNat] := by
    simp only [htx, getElem_set_seven hb]
  have hwt : Memory.wf t.mem := ht.wf_mem hw
  obtain ⟨u, v, hu, hv, hvx⟩ := exists_push_pop hwt hb hc (by omega) (by rw [ht.spInit_eq]; omega)
  have hcell : v.mem.read (s.x[7].toNat - 1) = s.x[a.toNat] := by
    obtain ⟨-, -, byte, hmem⟩ := hu.mem_of_store (.inl rfl)
    have hne : s.x[7].toNat - 1 ≠ t.x[7].toNat - 1 := by omega
    rw [hv.mem_eq nofun nofun, hmem, Memory.read_write hwt, if_neg hne, ht.read_of_push_of_lt hw ha]
  obtain ⟨y, hy⟩ : ∃ y, y = s.x.set c.toNat s.x[b.toNat] := ⟨_, rfl⟩
  have hy7 : y[7] = s.x[7] := by
    simp only [hy]
    exact Vector.getElem_set_ne _ _ (by omega)
  have hvy : v.x = y.set 7 (y[7] - 1#8) := by
    rw [hvx, htb, hy7, hy, htx, Vector.set_comm _ _ (by omega)]
  obtain ⟨w, hwd, hwx⟩ := exists_pop_of_decremented hd hvy (by rw [hy7]; omega)
    (by rwa [hy7, hv.spInit_eq, hu.spInit_eq, ht.spInit_eq])
  refine ⟨t, u, v, w, exec_of_completes ht, exec_of_completes hu, exec_of_completes hv,
    exec_of_completes hwd, ?_⟩
  rw [hwx, hy7, hcell, hy]

end Sys2Proof.Machine

/-! ### Control flow (spec/44_control_flow.md) -/

namespace Sys2Proof.Machine

variable {s t : State} {a : Byte}

/-! #### What a completed CALL and RET leave -/

/-- The return address is the address two above the CALL, without wrap (R122). -/
theorem State.toNat_returnAddress (h : s.pc.toNat ≤ 253) :
    s.returnAddress.toNat = s.pc.toNat + 2 := by
  rw [State.returnAddress, BitVec.toNat_ofNat]
  omega

theorem Completes.sp_of_call (h : Completes (.call a) s t) : t.x[7] = s.x[7] - 1#8 := by
  cases h
  exact State.sp_setSp s _

/-- The top of the stack after a CALL is the return address (R122). -/
theorem Completes.read_sp_of_call (h : Completes (.call a) s t) (hw : Memory.wf s.mem) :
    t.mem.read t.x[7].toNat = s.returnAddress := by
  have htsp := h.sp_of_call
  cases h with
  | call ha hsp =>
    rw [htsp, toNat_sub_one hsp]
    exact (Memory.read_write hw _ _ _).trans (if_pos rfl)

theorem Completes.pc_of_ret (h : Completes .ret s t) :
    t.pc.toNat = (s.mem.read s.x[7].toNat).toNat := by
  cases h
  exact s.toNat_jumpTo_pc _

/-! #### The obligations -/

/-- Settles O17: JMP completes with `x[a]` in `pc`, or stops at the index. -/
theorem jmpTransfers : Obligations.JmpTransfers :=
  fun _ _ => ⟨rfl, fun ha => exec_of_completes (.jmp ha), fun ha => exec_of_stops ⟨ha, rfl⟩⟩

/-- Settles O18: JEQ completes as JMP or stops at the index when E is set, and completes past itself, whatever
the operand, when E is clear. -/
theorem jeqTransfersWhenEqual : Obligations.JeqTransfersWhenEqual := by
  intro s a
  refine ⟨rfl, fun he => ⟨fun ha => ?_, fun ha => ?_⟩, fun he => ?_⟩
  · exact exec_of_completes (.jeqTaken he ha)
  · exact exec_of_stops ⟨he, ha, rfl⟩
  · exact exec_of_completes (.jeqNotTaken he)

/-- Settles O19: CALL completes by storing the return address below the stack pointer, or stops at the index,
else at 0. -/
theorem callPushesReturnAddress : Obligations.CallPushesReturnAddress := by
  intro s a
  refine ⟨rfl, ?_, fun ha => exec_of_stops (.inl ⟨ha, rfl⟩),
    fun ha hsp => exec_of_stops (.inr ⟨ha, hsp, rfl⟩)⟩
  rintro ha hsp hpc y rfl
  exact ⟨s.returnAddress, State.toNat_returnAddress hpc, exec_of_completes (.call ha hsp)⟩

/-- Settles O20: RET completes with the byte on top of the stack in `pc`, or stops at SP_INIT. -/
theorem retPopsProgramCounter : Obligations.RetPopsProgramCounter :=
  fun _ => ⟨rfl, fun hsp => exec_of_completes (.ret hsp), fun hsp => exec_of_stops ⟨hsp, rfl⟩⟩

/-- Settles O21: HLT always completes. -/
theorem hltHalts : Obligations.HltHalts :=
  fun _ => ⟨rfl, exec_of_completes .hlt⟩

/-- Settles O47: CALL leaves the stack pointer one below, where RET's guard admits it, and the return address
in that cell; RET loads the cell and undoes the decrement. -/
theorem callThenRetReturns : Obligations.CallThenRetReturns := by
  intro s t u a hw ha hpc hpos hle hcall hx hinit hcell
  have hsp : s.x[7] ≠ 0#8 := ne_zero_of_toNat_pos hpos
  have hd : Completes (.call a) s t := exec_next_of_completes (.call ha hsp) hcall ▸ .call ha hsp
  have hux : u.x[7] = s.x[7] - 1#8 := hx.trans hd.sp_of_call
  have hguard : u.x[7].toNat < u.spInit.toNat := by
    rw [hux, toNat_sub_one hsp, hinit, hd.spInit_eq]
    omega
  obtain ⟨v, hv⟩ : ∃ v, Completes .ret u v := ⟨_, .ret hguard⟩
  refine ⟨v, exec_of_completes hv, ?_, ?_⟩
  · rw [hv.pc_of_ret, hcell, hd.read_sp_of_call hw, State.toNat_returnAddress hpc]
  · obtain ⟨-, hvsp⟩ := hv.sp_of_ret
    rw [hvsp, hux, BitVec.sub_add_cancel]

end Sys2Proof.Machine

/-! ### Precise stops (spec/60_exceptions.md) -/

namespace Sys2Proof.Machine

/-- Settles O23: whether the fetch or the fetched instruction stops, its result is the old state with the cause
recorded. -/
theorem stopsArePrecise : Obligations.StopsArePrecise := by
  intro s t c h ht
  obtain ⟨hr, -⟩ := step_cases h
  obtain hn | ⟨i, hn, hc⟩ := step_stopped h ht
  · exact next_eq_next ((step_nextInstr_error hr hn).symm.trans h)
  · have hstep : step s = .next (stoppedAt s c) :=
      (step_nextInstr_ok hr hn).trans (exec_of_stops hc)
    exact next_eq_next (hstep.symm.trans h)

end Sys2Proof.Machine

/-! ### The invariant at reset and over a step (spec/10_state.md, spec/70_reset_and_hazards.md) -/

namespace Sys2Proof.Machine

/-- Settles O31: the program counter, the flags and the memory after a step, each by its own lemma in
`step_inv`. -/
theorem stepKeepsInv : Obligations.StepKeepsInv :=
  fun _ _ => step_inv

/-- Settles O32: `pc` and FL start at 0, and placing the image keeps the empty memory canonical. -/
theorem loadGivesInv : Obligations.LoadGivesInv := by
  intro spInit image t h
  unfold State.load at h
  split at h
  · cases h
    exact ⟨Nat.zero_le _, .inl rfl, Memory.wf_place Memory.wf_nil 0 image⟩
  · cases h

/-- Settles O33: the model's reset state is the one that the empty image loads. -/
theorem resetHasInv : Obligations.ResetHasInv :=
  loadGivesInv _ [] _ State.load_nil

/-- Settles O39: the loader's length check fails. -/
theorem longImageRefused : Obligations.LongImageRefused :=
  fun _ _ hlen => if_neg (Nat.not_le.mpr hlen)

end Sys2Proof.Machine

/-! ### Words of the opcode table, and a word placed for the next fetch -/

namespace Sys2Proof.Machine

variable {i : Instr} {s : State} {nbits w : Nat}

/-- Settles O4: each word, taken apart into its bytes, is at its row of the decoder. -/
theorem exampleWordsDecode : Obligations.ExampleWordsDecode :=
  ⟨rfl, rfl, rfl, rfl, rfl, rfl, rfl⟩

theorem decodeTableWord_eq_some_iff :
    decodeTableWord nbits w = some i ↔
      decode (tableByte nbits w 0) (tableByte nbits w 1) (tableByte nbits w 2) = .ok i := by
  unfold decodeTableWord
  split <;> simp_all

/-- A word placed at `pc` is the three bytes there. -/
theorem State.read_withFetchWord_byte (hw : Memory.wf s.mem) (hpc : s.pc.toNat ≤ 253) {k : Nat}
    (hk : k < 3) : (s.withFetchWord nbits w).mem.read (s.pc.toNat + k) = tableByte nbits w k := by
  refine (Memory.read_place hw _ _ (Nat.add_le_add_right hpc 3) _).trans
    ((dif_pos ⟨Nat.le_add_right _ k, Nat.add_lt_add_left hk _⟩).trans ?_)
  obtain rfl | rfl | rfl : k = 0 ∨ k = 1 ∨ k = 2 := by omega
  all_goals simp

/-- Every address but the three at `pc` reads as before the word was placed. -/
theorem State.read_withFetchWord_outside (hw : Memory.wf s.mem) (hpc : s.pc.toNat ≤ 253) {addr : Nat}
    (haddr : addr < s.pc.toNat ∨ s.pc.toNat + 3 ≤ addr) :
    (s.withFetchWord nbits w).mem.read addr = s.mem.read addr := by
  have hout : ¬ (s.pc.toNat ≤ addr ∧ addr < s.pc.toNat + 3) := by omega
  exact (Memory.read_place hw _ _ (Nat.add_le_add_right hpc 3) addr).trans (dif_neg hout)

/-- The next fetch reads the placed word (log 5). -/
theorem State.nextInstr_withFetchWord (hw : Memory.wf s.mem) (hpc : s.pc.toNat ≤ 253)
    (hd : decodeTableWord nbits w = some i) : (s.withFetchWord nbits w).nextInstr = .ok i := by
  have hbyte (k : Nat) (hk : k < 3) :
      (s.withFetchWord nbits w).mem.read (s.pc.toNat + k) = tableByte nbits w k :=
    State.read_withFetchWord_byte hw hpc hk
  apply State.nextInstr_inside (s.withFetchWord nbits w) hpc
  rw [← decodeTableWord_eq_some_iff.mp hd, ← hbyte 0 (by omega), ← hbyte 1 (by omega),
    ← hbyte 2 (by omega)]
  rfl

/-- Settles O40: the next fetch reads the placed word, and placing it changes only memory, at those three
bytes. -/
theorem placedWordIsRunNext : Obligations.PlacedWordIsRunNext := by
  intro s nbits w i hw hr hpc hd
  have hn : (s.withFetchWord nbits w).nextInstr = .ok i := State.nextInstr_withFetchWord hw hpc hd
  exact ⟨step_nextInstr_ok hr hn, _, rfl, fun _ => State.read_withFetchWord_outside hw hpc⟩

end Sys2Proof.Machine

/-! ### What depends on SP_INIT (spec/92_eei_decisions.md D1) -/

namespace Sys2Proof.Machine

variable {i : Instr} {s t : State} {c : Cause}

/-- No guard but that of POP and RET mentions SP_INIT. -/
theorem Stops.withSpInit (v : Byte) (h : Stops i s c) (hpop : ∀ a, i ≠ .pop a) (hret : i ≠ .ret) :
    Stops i { s with spInit := v } c := by
  cases i with
  | pop a => exact absurd rfl (hpop a)
  | ret => exact absurd rfl hret
  | _ => exact h

/-- Every completed instruction but POP and RET does the same under any other SP_INIT. -/
theorem Completes.withSpInit (v : Byte) (h : Completes i s t) (hpop : ∀ a, i ≠ .pop a)
    (hret : i ≠ .ret) : Completes i { s with spInit := v } { t with spInit := v } := by
  cases h with
  | pop => exact absurd rfl (hpop _)
  | ret => exact absurd rfl hret
  | _ => constructor <;> assumption

/-- Settles O50: neither a stop nor a completed instruction, but for POP and RET, looks at SP_INIT. -/
theorem spInitOnlyBoundsPops : Obligations.SpInitOnlyBoundsPops := by
  intro i s t v hpop hret h
  obtain ⟨c, hc, rfl⟩ | hd := exec_eq_next_iff.mp h
  · exact exec_of_stops (hc.withSpInit v hpop hret)
  · exact exec_of_completes (hd.withSpInit v hpop hret)

end Sys2Proof.Machine

/-! ### Where no step exists, and the order of stops -/

namespace Sys2Proof.Machine

variable {s t : State}

/-- Settles O10: the run state alone selects the fault. -/
theorem endedStatesFaultByName : Obligations.EndedStatesFaultByName := by
  intro s
  constructor
  · intro hr
    rw [step, hr]
  · intro c hr
    rw [step, hr]

theorem step_ne_next_of_ended (h : s.ended = true) : step s ≠ .next t := by
  intro hstep
  obtain ⟨hr, -⟩ := step_cases hstep
  simp [State.ended, hr] at h

theorem runFor_succ_of_next (h : step s = .next t) (k : Nat) : runFor (k + 1) s = runFor k t := by
  simp [runFor, h]

/-- A run stays where no step exists. -/
theorem runFor_of_no_step (h : ∀ t, step s ≠ .next t) (k : Nat) : runFor k s = s := by
  cases k with
  | zero => rfl
  | succ k =>
    unfold runFor
    split
    · exact absurd ‹_› (h _)
    · rfl
    · rfl

/-- A run of `j + k` steps is a run of `k` steps from where `j` steps end. -/
theorem runFor_add (j k : Nat) (s : State) : runFor (j + k) s = runFor k (runFor j s) := by
  induction j generalizing s with
  | zero => rw [Nat.zero_add]; rfl
  | succ j ih =>
    by_cases hstep : ∃ t, step s = .next t
    · obtain ⟨t, ht⟩ := hstep
      rw [Nat.succ_add, runFor_succ_of_next ht, runFor_succ_of_next ht, ih]
    · have hno := not_exists.mp hstep
      simp only [runFor_of_no_step hno]

/-- Settles O51: the further steps start where no step exists. -/
theorem endedRunStays : Obligations.EndedRunStays := by
  intro s j k hended
  rw [runFor_add]
  exact runFor_of_no_step (fun _ => step_ne_next_of_ended hended) k

/-- Settles O7: the fetch fails at address 256, and the step stops with what the fetch failed with. -/
theorem fetchPastMemoryStops : Obligations.FetchPastMemoryStops :=
  fun _ hr hlo hhi => step_nextInstr_error hr (State.nextInstr_outside hlo hhi)

/-- Settles O25: a failed fetch reaches no instruction, and operand `a` is the first check of each
instruction named. -/
theorem stopPriority : Obligations.StopPriority := by
  refine ⟨fetchPastMemoryStops, fun s a b ha _ => ⟨?_, ?_⟩, fun s a ha _ => ⟨?_, ?_⟩,
    fun s a ha _ => ?_⟩
  all_goals exact exec_of_stops (.inl ⟨ha, rfl⟩)

end Sys2Proof.Machine
